-- ==== Sys2Proof/Word.lean ====
section
/-! DEFINITION. The word types of the machine (spec 00_scope.md R7, R9, R10). Every value of this hardware is an
unsigned integer; bit 0 is the least significant bit. -/

namespace Sys2Proof

/-- One byte: a memory cell, a general register, a timer (R7). -/
abbrev Byte := BitVec 8

/-- Sixteen bits: an instruction word, the program counter, the index register, a call-stack entry (R7). -/
abbrev Word := BitVec 16

/-- The number of a general register, V0 to VF (R21). -/
abbrev Reg := Fin 16

/-- The 12-bit address field `nnn` of an instruction (R92). -/
abbrev Addr := BitVec 12

/-- The 4-bit field `n` of an instruction (R92). -/
abbrev Nibble := BitVec 4

end Sys2Proof
end

