-- ==== Sys2Proof/Syntax.lean ====
section
/-! DEFINITION. The instructions (spec 30_encoding.md R96): one constructor per row of spec/opcode_table.json, and
the rows themselves as data. -/

namespace Sys2Proof

/-- The 33 instructions of R96. Registers are named `x` and `y`, the immediate byte `nn`, the address `nnn` and the
sprite height `n`, as in R92. -/
inductive Instr where
  /-- HALT0, 0000 (R123). -/
  | halt0
  /-- CLS, 00E0 (R224). -/
  | cls
  /-- RET, 00EE (R152). -/
  | ret
  /-- JP, 1NNN (R153). -/
  | jp (nnn : Addr)
  /-- CALL, 2NNN (R154). -/
  | call (nnn : Addr)
  /-- SE_VX_NN, 3XNN (R156). -/
  | seVxNn (x : Reg) (nn : Byte)
  /-- SNE_VX_NN, 4XNN (R157). -/
  | sneVxNn (x : Reg) (nn : Byte)
  /-- SE_VX_VY, 5XY0 (R158). -/
  | seVxVy (x y : Reg)
  /-- LD_VX_NN, 6XNN (R170). -/
  | ldVxNn (x : Reg) (nn : Byte)
  /-- ADD_VX_NN, 7XNN (R171). -/
  | addVxNn (x : Reg) (nn : Byte)
  /-- LD_VX_VY, 8XY0 (R177). -/
  | ldVxVy (x y : Reg)
  /-- OR, 8XY1 (R178). -/
  | orVxVy (x y : Reg)
  /-- AND, 8XY2 (R179). -/
  | andVxVy (x y : Reg)
  /-- XOR, 8XY3 (R180). -/
  | xorVxVy (x y : Reg)
  /-- ADD_VX_VY, 8XY4 (R181). -/
  | addVxVy (x y : Reg)
  /-- SUB, 8XY5 (R182). -/
  | subVxVy (x y : Reg)
  /-- SHR, 8XY6 (R183). -/
  | shrVxVy (x y : Reg)
  /-- SUBN, 8XY7 (R184). -/
  | subnVxVy (x y : Reg)
  /-- SHL, 8XYE (R185). -/
  | shlVxVy (x y : Reg)
  /-- SNE_VX_VY, 9XY0 (R159). -/
  | sneVxVy (x y : Reg)
  /-- LD_I_NNN, ANNN (R200). -/
  | ldINnn (nnn : Addr)
  /-- JP_V0, BNNN (R155). -/
  | jpV0 (nnn : Addr)
  /-- RND, CXNN (R191). -/
  | rnd (x : Reg) (nn : Byte)
  /-- DRW, DXYN (R225). -/
  | drw (x y : Reg) (n : Nibble)
  /-- LD_VX_DT, FX07 (R240). -/
  | ldVxDt (x : Reg)
  /-- LD_VX_K, FX0A (R246, R247). -/
  | ldVxK (x : Reg)
  /-- LD_DT_VX, FX15 (R241). -/
  | ldDtVx (x : Reg)
  /-- LD_ST_VX, FX18 (R242). -/
  | ldStVx (x : Reg)
  /-- ADD_I_VX, FX1E (R201). -/
  | addIVx (x : Reg)
  /-- LD_F_VX, FX29 (R202). -/
  | ldFVx (x : Reg)
  /-- LD_B_VX, FX33 (R203). -/
  | ldBVx (x : Reg)
  /-- LD_MEM_VX, FX55 (R204). -/
  | ldMemVx (x : Reg)
  /-- LD_VX_MEM, FX65 (R205). -/
  | ldVxMem (x : Reg)
  deriving DecidableEq, Repr

/-- One row of the opcode table (R96): a word `w` selects it iff `w` ANDed with `mask` is `pattern`. -/
structure OpcodeRow where
  mnemonic : String
  pattern : Word
  mask : Word
  deriving DecidableEq, Repr

/-- R96: the word `w` selects the row. -/
def OpcodeRow.selectedBy (r : OpcodeRow) (w : Word) : Bool := (w &&& r.mask) == r.pattern

/-- The row of each instruction, as R96 lists it. -/
def Instr.row : Instr → OpcodeRow
  | .halt0 => ⟨"HALT0", 0x0000, 0xFFFF⟩
  | .cls => ⟨"CLS", 0x00E0, 0xFFFF⟩
  | .ret => ⟨"RET", 0x00EE, 0xFFFF⟩
  | .jp _ => ⟨"JP", 0x1000, 0xF000⟩
  | .call _ => ⟨"CALL", 0x2000, 0xF000⟩
  | .seVxNn _ _ => ⟨"SE_VX_NN", 0x3000, 0xF000⟩
  | .sneVxNn _ _ => ⟨"SNE_VX_NN", 0x4000, 0xF000⟩
  | .seVxVy _ _ => ⟨"SE_VX_VY", 0x5000, 0xF00F⟩
  | .ldVxNn _ _ => ⟨"LD_VX_NN", 0x6000, 0xF000⟩
  | .addVxNn _ _ => ⟨"ADD_VX_NN", 0x7000, 0xF000⟩
  | .ldVxVy _ _ => ⟨"LD_VX_VY", 0x8000, 0xF00F⟩
  | .orVxVy _ _ => ⟨"OR", 0x8001, 0xF00F⟩
  | .andVxVy _ _ => ⟨"AND", 0x8002, 0xF00F⟩
  | .xorVxVy _ _ => ⟨"XOR", 0x8003, 0xF00F⟩
  | .addVxVy _ _ => ⟨"ADD_VX_VY", 0x8004, 0xF00F⟩
  | .subVxVy _ _ => ⟨"SUB", 0x8005, 0xF00F⟩
  | .shrVxVy _ _ => ⟨"SHR", 0x8006, 0xF00F⟩
  | .subnVxVy _ _ => ⟨"SUBN", 0x8007, 0xF00F⟩
  | .shlVxVy _ _ => ⟨"SHL", 0x800E, 0xF00F⟩
  | .sneVxVy _ _ => ⟨"SNE_VX_VY", 0x9000, 0xF00F⟩
  | .ldINnn _ => ⟨"LD_I_NNN", 0xA000, 0xF000⟩
  | .jpV0 _ => ⟨"JP_V0", 0xB000, 0xF000⟩
  | .rnd _ _ => ⟨"RND", 0xC000, 0xF000⟩
  | .drw _ _ _ => ⟨"DRW", 0xD000, 0xF000⟩
  | .ldVxDt _ => ⟨"LD_VX_DT", 0xF007, 0xF0FF⟩
  | .ldVxK _ => ⟨"LD_VX_K", 0xF00A, 0xF0FF⟩
  | .ldDtVx _ => ⟨"LD_DT_VX", 0xF015, 0xF0FF⟩
  | .ldStVx _ => ⟨"LD_ST_VX", 0xF018, 0xF0FF⟩
  | .addIVx _ => ⟨"ADD_I_VX", 0xF01E, 0xF0FF⟩
  | .ldFVx _ => ⟨"LD_F_VX", 0xF029, 0xF0FF⟩
  | .ldBVx _ => ⟨"LD_B_VX", 0xF033, 0xF0FF⟩
  | .ldMemVx _ => ⟨"LD_MEM_VX", 0xF055, 0xF0FF⟩
  | .ldVxMem _ => ⟨"LD_VX_MEM", 0xF065, 0xF0FF⟩

/-- The opcode table, one instruction of each row in the order of R96. The operands do not enter a row. -/
def opcodeTable : List OpcodeRow :=
  [Instr.halt0, .cls, .ret, .jp 0, .call 0, .seVxNn 0 0, .sneVxNn 0 0, .seVxVy 0 0, .ldVxNn 0 0, .addVxNn 0 0,
   .ldVxVy 0 0, .orVxVy 0 0, .andVxVy 0 0, .xorVxVy 0 0, .addVxVy 0 0, .subVxVy 0 0, .shrVxVy 0 0, .subnVxVy 0 0,
   .shlVxVy 0 0, .sneVxVy 0 0, .ldINnn 0, .jpV0 0, .rnd 0 0, .drw 0 0 0, .ldVxDt 0, .ldVxK 0, .ldDtVx 0,
   .ldStVx 0, .addIVx 0, .ldFVx 0, .ldBVx 0, .ldMemVx 0, .ldVxMem 0].map Instr.row

end Sys2Proof
end

