-- ==== Sys2Proof/WellFormed.lean ====
section
/-! DEFINITION. What makes an instruction and the opcode table well formed (spec 30_encoding.md R94, R96, R102). The
bounds of the operands (a register number below 16, a byte, a 12-bit address, a nibble) are carried by their types,
so no operand can be out of range; what is left to check is the table the instruction's row stands in. -/

namespace Sys2Proof

/-- A row fixes the primary nibble, since the primary dispatch is on it (R94). -/
def OpcodeRow.fixesOpcode (r : OpcodeRow) : Bool := (r.mask &&& 0xF000) == 0xF000

/-- The pattern has no bit outside the mask: otherwise no word could select the row (R96). -/
def OpcodeRow.patternInMask (r : OpcodeRow) : Bool := (r.pattern &&& ~~~r.mask) == 0

/-- A well-formed row. -/
def OpcodeRow.wellFormed (r : OpcodeRow) : Bool := r.fixesOpcode && r.patternInMask

/-- No word selects both rows (R96, R102): they differ in a bit that both of them fix. -/
def OpcodeRow.disjoint (r q : OpcodeRow) : Bool := ((r.pattern ^^^ q.pattern) &&& r.mask &&& q.mask) != 0

/-- Each row is well formed and disjoint from every later one. -/
def tableWellFormed : List OpcodeRow → Bool
  | [] => true
  | r :: rs => r.wellFormed && rs.all r.disjoint && tableWellFormed rs

/-- The row stands in the table, under its pattern and mask. -/
def OpcodeRow.listedIn (r : OpcodeRow) (table : List OpcodeRow) : Bool :=
  table.any fun q => q.pattern == r.pattern && q.mask == r.mask

/-- A well-formed instruction: its row is well formed and is a row of the opcode table. -/
def Instr.wellFormed (i : Instr) : Bool := i.row.wellFormed && i.row.listedIn opcodeTable

end Sys2Proof
end

