-- ==== Sys2Proof/Decode.lean ====
section
/-! DEFINITION. Decoding (spec 30_encoding.md R90 to R95), the bit-field utilities (00_scope.md R12), and after them
the encoder (R105). -/

namespace Sys2Proof

/-- R12 `highNibble`: bits 15..12, the primary opcode. -/
def highNibble (w : Word) : BitVec 4 := w.extractLsb' 12 4

/-- R12 `lowNibbleOfHighByte`: bits 11..8, the field `x`. -/
def lowNibbleOfHighByte (w : Word) : BitVec 4 := w.extractLsb' 8 4

/-- R12 `highNibbleOfLowByte`: bits 7..4, the field `y`. -/
def highNibbleOfLowByte (w : Word) : BitVec 4 := w.extractLsb' 4 4

/-- R12 `lowNibbleOfLowByte`: bits 3..0, the field `n`. -/
def lowNibbleOfLowByte (w : Word) : BitVec 4 := w.extractLsb' 0 4

/-- R12 `lowByte`: bits 7..0, the field `nn`. -/
def lowByte (w : Word) : Byte := w.extractLsb' 0 8

/-- Bits 15..8, the byte at the lower address (R62). -/
def highByte (w : Word) : Byte := w.extractLsb' 8 8

/-- R12 `twelveBits`: bits 11..0, the field `nnn`. -/
def twelveBits (w : Word) : Addr := w.extractLsb' 0 12

/-- R92: the register the field `x` names. -/
def fieldX (w : Word) : Reg := (lowNibbleOfHighByte w).toFin

/-- R92: the register the field `y` names. -/
def fieldY (w : Word) : Reg := (highNibbleOfLowByte w).toFin

/-- R62: a word from its two bytes, the first one high. -/
def wordOf (hi lo : Byte) : Word := hi ++ lo

/-- Why the decoder gives no instruction. -/
inductive Undecodable where
  /-- The word selects no row of R96 (R100). Not a stop: the step gives it the meaning of R125. -/
  | unknownOpcode (w : Word)
  /-- Fewer than the two bytes of an instruction (R90). The step never asks: its fetch delivers two bytes or halts. -/
  | truncated
  deriving DecidableEq, Repr

/-- Secondary selection for primary opcode 0: the whole word (R94). -/
def decodeWhole (w : Word) : Except Undecodable Instr :=
  if w = 0x00E0 then .ok .cls
  else if w = 0x00EE then .ok .ret
  else .error (.unknownOpcode w)

/-- Secondary selection for primary opcode 8: the nibble `n` (R94, R175). -/
def decodeAlu (w : Word) : Except Undecodable Instr :=
  match (lowNibbleOfLowByte w).toNat with
  | 0x0 => .ok (.ldVxVy (fieldX w) (fieldY w))
  | 0x1 => .ok (.orVxVy (fieldX w) (fieldY w))
  | 0x2 => .ok (.andVxVy (fieldX w) (fieldY w))
  | 0x3 => .ok (.xorVxVy (fieldX w) (fieldY w))
  | 0x4 => .ok (.addVxVy (fieldX w) (fieldY w))
  | 0x5 => .ok (.subVxVy (fieldX w) (fieldY w))
  | 0x6 => .ok (.shrVxVy (fieldX w) (fieldY w))
  | 0x7 => .ok (.subnVxVy (fieldX w) (fieldY w))
  | 0xE => .ok (.shlVxVy (fieldX w) (fieldY w))
  | _ => .error (.unknownOpcode w)

/-- Secondary selection for primary opcode F: the byte `nn` (R94). -/
def decodeMisc (w : Word) : Except Undecodable Instr :=
  if lowByte w = 0x07 then .ok (.ldVxDt (fieldX w))
  else if lowByte w = 0x0A then .ok (.ldVxK (fieldX w))
  else if lowByte w = 0x15 then .ok (.ldDtVx (fieldX w))
  else if lowByte w = 0x18 then .ok (.ldStVx (fieldX w))
  else if lowByte w = 0x1E then .ok (.addIVx (fieldX w))
  else if lowByte w = 0x29 then .ok (.ldFVx (fieldX w))
  else if lowByte w = 0x33 then .ok (.ldBVx (fieldX w))
  else if lowByte w = 0x55 then .ok (.ldMemVx (fieldX w))
  else if lowByte w = 0x65 then .ok (.ldVxMem (fieldX w))
  else .error (.unknownOpcode w)

/-- R94: the zero word first, then primary dispatch on the high nibble (R95), then the secondary selections. For 5 and
9 the nibble `n` must be 0 (90_conflicts.md C5). -/
def decodeWord (w : Word) : Except Undecodable Instr :=
  if w = 0x0000 then .ok .halt0
  else match (highNibble w).toNat with
  | 0x0 => decodeWhole w
  | 0x1 => .ok (.jp (twelveBits w))
  | 0x2 => .ok (.call (twelveBits w))
  | 0x3 => .ok (.seVxNn (fieldX w) (lowByte w))
  | 0x4 => .ok (.sneVxNn (fieldX w) (lowByte w))
  | 0x5 => if lowNibbleOfLowByte w = 0 then .ok (.seVxVy (fieldX w) (fieldY w)) else .error (.unknownOpcode w)
  | 0x6 => .ok (.ldVxNn (fieldX w) (lowByte w))
  | 0x7 => .ok (.addVxNn (fieldX w) (lowByte w))
  | 0x8 => decodeAlu w
  | 0x9 => if lowNibbleOfLowByte w = 0 then .ok (.sneVxVy (fieldX w) (fieldY w)) else .error (.unknownOpcode w)
  | 0xA => .ok (.ldINnn (twelveBits w))
  | 0xB => .ok (.jpV0 (twelveBits w))
  | 0xC => .ok (.rnd (fieldX w) (lowByte w))
  | 0xD => .ok (.drw (fieldX w) (fieldY w) (lowNibbleOfLowByte w))
  | 0xF => decodeMisc w
  | _ => .error (.unknownOpcode w)

/-- Decoding of any bytes: the instruction and the bytes after it (R90, R62). -/
def decode : List Byte → Except Undecodable (Instr × List Byte)
  | hi :: lo :: rest =>
    match decodeWord (wordOf hi lo) with
    | .ok i => .ok (i, rest)
    | .error e => .error e
  | _ => .error .truncated

/-- Format NNN of R91: opcode, address. -/
def packNnn (op : BitVec 4) (nnn : Addr) : Word := op ++ nnn

/-- Format XNN of R91: opcode, `x`, `nn`. Format X is this one with `nn` fixed. -/
def packXnn (op : BitVec 4) (x : Reg) (nn : Byte) : Word := op ++ (BitVec.ofFin x : BitVec 4) ++ nn

/-- Format XYN of R91: opcode, `x`, `y`, `n`. Format XY is this one with `n` fixed. -/
def packXyn (op : BitVec 4) (x y : Reg) (n : Nibble) : Word :=
  op ++ (BitVec.ofFin x : BitVec 4) ++ (BitVec.ofFin y : BitVec 4) ++ n

/-- R105: the structural inverse of the decoder, the word of an instruction by the formats of R91 and the patterns of
R96. -/
def encode : Instr → Word
  | .halt0 => 0x0000
  | .cls => 0x00E0
  | .ret => 0x00EE
  | .jp nnn => packNnn 0x1 nnn
  | .call nnn => packNnn 0x2 nnn
  | .seVxNn x nn => packXnn 0x3 x nn
  | .sneVxNn x nn => packXnn 0x4 x nn
  | .seVxVy x y => packXyn 0x5 x y 0x0
  | .ldVxNn x nn => packXnn 0x6 x nn
  | .addVxNn x nn => packXnn 0x7 x nn
  | .ldVxVy x y => packXyn 0x8 x y 0x0
  | .orVxVy x y => packXyn 0x8 x y 0x1
  | .andVxVy x y => packXyn 0x8 x y 0x2
  | .xorVxVy x y => packXyn 0x8 x y 0x3
  | .addVxVy x y => packXyn 0x8 x y 0x4
  | .subVxVy x y => packXyn 0x8 x y 0x5
  | .shrVxVy x y => packXyn 0x8 x y 0x6
  | .subnVxVy x y => packXyn 0x8 x y 0x7
  | .shlVxVy x y => packXyn 0x8 x y 0xE
  | .sneVxVy x y => packXyn 0x9 x y 0x0
  | .ldINnn nnn => packNnn 0xA nnn
  | .jpV0 nnn => packNnn 0xB nnn
  | .rnd x nn => packXnn 0xC x nn
  | .drw x y n => packXyn 0xD x y n
  | .ldVxDt x => packXnn 0xF x 0x07
  | .ldVxK x => packXnn 0xF x 0x0A
  | .ldDtVx x => packXnn 0xF x 0x15
  | .ldStVx x => packXnn 0xF x 0x18
  | .addIVx x => packXnn 0xF x 0x1E
  | .ldFVx x => packXnn 0xF x 0x29
  | .ldBVx x => packXnn 0xF x 0x33
  | .ldMemVx x => packXnn 0xF x 0x55
  | .ldVxMem x => packXnn 0xF x 0x65

/-- The two bytes of an instruction as memory holds them, high byte first (R62, R90). -/
def encodeBytes (i : Instr) : List Byte := [highByte (encode i), lowByte (encode i)]

/-- The first word of an instruction whose bits are `w`, of which the table gives `nbits`; the bits above are zero. -/
def tableWord (nbits w : Nat) : Word := BitVec.ofNat 16 (w % 2 ^ nbits)

/-- What the decoder reads from an instruction whose bits are `w`, numbered as spec/opcode_table.json numbers them
(the host's question): the word's two bytes laid out high byte first, then decoded. -/
def decodeTableWord (nbits w : Nat) : Option Instr :=
  match decode [highByte (tableWord nbits w), lowByte (tableWord nbits w)] with
  | .ok (i, _) => some i
  | .error _ => none

end Sys2Proof
end

