-- ==== Sys2Proof/Machine/Flags.lean ====
section
/-! DEFINITION. Every flag computation the spec gives (10_state.md R22, R27): the value the six flag-writing
instructions put into VF. There is no other flag and no status register. -/

namespace Sys2Proof.Machine

/-- The register that doubles as the flag (R22). -/
def flagReg : Reg := 0xF

/-- A flag as the byte VF holds: 0x00 or 0x01 (R27). -/
def flagByte (b : Bool) : Byte := if b then 1 else 0

/-- R181: the carry out of an 8-bit addition, 1 iff the widened sum exceeds 255. -/
def carryFlag (a b : Byte) : Byte := flagByte (decide (a.toNat + b.toNat > 255))

/-- R182, R184: not-borrow of `a - b`, 1 iff `a >= b`, equality included. -/
def notBorrowFlag (a b : Byte) : Byte := flagByte (decide (a.toNat ≥ b.toNat))

/-- R183: the bit a right shift drops, bit 0. -/
def shiftedOutRight (a : Byte) : Byte := a &&& 1

/-- R185: the bit a left shift drops, bit 7. -/
def shiftedOutLeft (a : Byte) : Byte := (a &&& 0x80) >>> 7

end Sys2Proof.Machine
end

