-- ==== Sys2Proof/Config.lean ====
section
/-! DEFINITION. The fixed sizes of the hardware (spec 00_scope.md R7) and its one free value. The two parameters of
R8, SHIFT_READS_VY and FONT, are in Machine/Params.lean. -/

namespace Sys2Proof.Config

/-- R7, R60: the number of bytes of `MEM`; the addresses are 0 to 0xFFF. -/
def memSize : Nat := 4096

/-- R7: the program load address. -/
def programBase : Nat := 0x200

/-- R306: the most bytes one `load` stores, 4096 - 0x200. -/
def maxLoad : Nat := 3584

/-- R7, R32: the first address of the font region. -/
def fontBase : Nat := 0x050

/-- R7: the bytes of the font region, 16 glyphs of 5 bytes. -/
def fontSize : Nat := 80

/-- FREE VALUE (log 2; safe). The random byte a draw delivers when the listed inputs `env.randoms` are used up, the
`k`-th draw of the run having the argument `k`. It has no body: R190 puts the byte under no law (U12 `any value`). -/
opaque freeRandom : Nat → Byte

end Sys2Proof.Config
end

