-- ==== Sys2Proof/Machine/Params.lean ====
section
/-! DEFINITION. The two parameters of the hardware (spec 00_scope.md R8): SHIFT_READS_VY and FONT, as the arguments they
are, their defaults, and the reset contents of memory that FONT decides (10_state.md R32). -/

namespace Sys2Proof.Machine

/-- R8: FONT, 80 bytes, of which glyph `d` is the 5 from `5*d` up (R33). -/
abbrev Font := Vector Byte 80

/-- R8: the parameters the model takes as arguments. They are fixed for one machine: State holds them (`State.params`),
and no step changes them. -/
structure Params where
  /-- SHIFT_READS_VY: the shifts read `V[y]`, else `V[x]` (R183, R185). -/
  shiftReadsVy : Bool
  /-- FONT: the bytes copied to 0x050 to 0x09F at reset (R32). -/
  font : Font
  deriving DecidableEq, Repr

/-- R33: the 16 glyphs of the default FONT, the customary CHIP-8 font. PRESUMED (log 5; unsafe): the source gives the
place and the shape, not the bytes. -/
def defaultGlyphs : List Byte :=
  [0xF0, 0x90, 0x90, 0x90, 0xF0] ++ [0x20, 0x60, 0x20, 0x20, 0x70] ++
  [0xF0, 0x10, 0xF0, 0x80, 0xF0] ++ [0xF0, 0x10, 0xF0, 0x10, 0xF0] ++
  [0x90, 0x90, 0xF0, 0x10, 0x10] ++ [0xF0, 0x80, 0xF0, 0x10, 0xF0] ++
  [0xF0, 0x80, 0xF0, 0x90, 0xF0] ++ [0xF0, 0x10, 0x20, 0x40, 0x40] ++
  [0xF0, 0x90, 0xF0, 0x90, 0xF0] ++ [0xF0, 0x90, 0xF0, 0x10, 0xF0] ++
  [0xF0, 0x90, 0xF0, 0x90, 0x90] ++ [0xE0, 0x90, 0xE0, 0x90, 0xE0] ++
  [0xF0, 0x80, 0x80, 0x80, 0xF0] ++ [0xE0, 0x90, 0x90, 0x90, 0xE0] ++
  [0xF0, 0x80, 0xF0, 0x80, 0xF0] ++ [0xF0, 0x80, 0xF0, 0x80, 0x80]

/-- R33: the default FONT. -/
def defaultFont : Font := ⟨defaultGlyphs.toArray, rfl⟩

/-- R8: the defaults. SHIFT_READS_VY is `true`, this hardware's value (D10, log 6); FONT is R33's default (D21,
log 5). -/
def Params.default : Params where
  shiftReadsVy := true
  font := defaultFont

/-- R32: the byte at an address after reset: FONT at 0x050 to 0x09F, zero elsewhere. It is what an unlisted address of
memory reads as. -/
def resetByte (f : Font) (a : Nat) : Byte :=
  if h : Config.fontBase ≤ a ∧ a < Config.fontBase + Config.fontSize then
    f[a - Config.fontBase]'(by have := h.1; have := h.2; simp only [Config.fontBase, Config.fontSize] at *; omega)
  else 0

end Sys2Proof.Machine
end

