-- ==== Sys2Proof/Machine/State.lean ====
section
/-! DEFINITION. The state of the machine as plain data (spec 10_state.md R20): every item of R20, and beside it the
two parameters of R8 and what the outside will do next (`Env`), which is the model's own, not the hardware's. -/

namespace Sys2Proof.Machine

/-- R40: the state of the run loop. -/
inductive Run where
  | running
  | waitingForKey
  | halted
  deriving DecidableEq, Repr

/-- R41: why the run loop is Halted. -/
inductive HaltCause where
  | none
  | zeroWord
  | quit
  | fetchFault
  | addrFault
  deriving DecidableEq, Repr

/-- R41: the 3-bit code of a cause; 5 to 7 are never produced. -/
def HaltCause.code : HaltCause → BitVec 3
  | .none => 0
  | .zeroWord => 1
  | .quit => 2
  | .fetchFault => 3
  | .addrFault => 4

/-- R43: the four sticky bits of `DIAG`. -/
structure Diag where
  unk : Bool
  sovf : Bool
  sunf : Bool
  loadTrunc : Bool
  deriving DecidableEq, Repr

/-- R43: `DIAG` as the 4-bit number of the status port, bit 0 `UNK` to bit 3 `LOAD_TRUNC`. -/
def Diag.bits (d : Diag) : BitVec 4 :=
  BitVec.ofBool d.loadTrunc ++ BitVec.ofBool d.sunf ++ BitVec.ofBool d.sovf ++ BitVec.ofBool d.unk

/-- R46, R130: the host's answer to one poll. -/
inductive Event where
  | none
  | keyboard (key : Byte)
  | quit
  deriving DecidableEq, Repr

/-- R70, R72: one atomic action of one agent: a step of the core, a tick of the timer, or a `reset` or `load` of the
host (R46). -/
inductive Turn where
  | core
  | tick
  | reset
  | load (bytes : List Byte)
  deriving DecidableEq, Repr

/-- What the outside will do, oldest first (logs 1 to 4, 9). The model's OWN fields: the hardware holds no queue (R45)
and never sees these ahead of time. A claim over every state covers every finite behaviour of the outside. -/
structure Env where
  /-- The coming actions; when it is empty the core takes its turn. -/
  turns : List Turn
  /-- The coming answers to polls; when it is empty a poll is answered `None`. -/
  events : List Event
  /-- The coming random bytes; when it is empty a draw delivers `Config.freeRandom`. -/
  randoms : List Byte
  /-- How many random bytes have been drawn. -/
  drawn : Nat
  /-- Whether the core has taken a step since reset (R305). -/
  started : Bool
  deriving DecidableEq, Repr

/-- R32, R60: `MEM` as the bytes that differ from the reset contents, addresses strictly rising (`Memory.wf`). -/
abbrev Memory := List Host.Cell

/-- R29: the display buffer, 32 rows of 64 cells; `disp[r][c]` is the cell at row `r`, column `c`. -/
abbrev Display := Vector (Vector Bool 64) 32

/-- R20: the complete state of the hardware, the parameters it is configured with (R8), and `env`, the model's own. -/
structure State where
  /-- `V[0..15]` (R21). -/
  v : Vector Byte 16
  /-- `I` (R34). -/
  i : Word
  /-- `PC` (R24). -/
  pc : Word
  /-- `MEM` (R32). -/
  mem : Memory
  /-- `STACK[0..15]` (R28). -/
  stack : Vector Word 16
  /-- `SP`, 0 to 16 (R28). -/
  sp : Fin 17
  /-- `DISP` (R29). -/
  disp : Display
  /-- `DT` (R30). -/
  dt : Byte
  /-- `ST` (R31). -/
  st : Byte
  /-- `RUN` (R40). -/
  run : Run
  /-- `HALT_CAUSE` (R41). -/
  haltCause : HaltCause
  /-- `KEYREG` (R42). -/
  keyreg : Reg
  /-- `DIAG` (R43). -/
  diag : Diag
  /-- SHIFT_READS_VY and FONT (R8): fixed for one machine, written by no step. -/
  params : Params
  /-- The outside (the model's own). -/
  env : Env
  deriving DecidableEq, Repr

/-- Why the machine stops with a fault: nothing does, so there is no constructor. Every condition of R260 is a next
state (FETCH_FAULT and ADDR_FAULT make `RUN` Halted and set `HALT_CAUSE`, R262), and no instruction or encoding is
undefined (R102). Log 8; safe: no step answers a fault that the hardware does not have. -/
inductive Fault where
  deriving DecidableEq, Repr

/-- Why a step has no next state. -/
inductive Refusal where
  /-- An arm of `exec` whose instruction has no meaning yet. Safe. No arm raises it now. -/
  | notModelled (mnemonic : String)
  /-- Raised by a `load` turn after the first core step: "the hardware's port does not accept it, and a model gives it
  no move" (R305, 93_implementation_defined.md U18). Safe: the model stops where the spec gives no behaviour. No
  instruction raises it. -/
  | loadAfterFirstStep
  deriving DecidableEq, Repr

/-- Nothing scheduled, nothing offered, nothing drawn, no step taken (logs 1 to 4, 9: DESIGN CHOICE). -/
def Env.reset : Env where
  turns := []
  events := []
  randoms := []
  drawn := 0
  started := false

/-- R47, R300, R301: the state after reset of the machine with the parameters `p` (R8). Memory lists nothing, so every
byte reads as its reset content (R32). The zeros of `V`, `I`, `DISP`, `ST`, `STACK`, `KEYREG`, `HALT_CAUSE` and `DIAG` are
R47's by decision D14 (log 7). -/
def State.resetWith (p : Params) : State where
  v := Vector.replicate 16 0
  i := 0
  pc := 0x0200
  mem := []
  stack := Vector.replicate 16 0
  sp := 0
  disp := Vector.replicate 32 (Vector.replicate 64 false)
  dt := 0
  st := 0
  run := .running
  haltCause := .none
  keyreg := 0
  diag := ⟨false, false, false, false⟩
  params := p
  env := Env.reset

/-- The state after reset with the default parameters of R8 (logs 5, 6). -/
def State.reset : State := State.resetWith Params.default

end Sys2Proof.Machine
end

