-- ==== Sys2Proof/Machine/Operands.lean ====
section
/-! DEFINITION. The operand forms (spec 30_encoding.md R93, 43_index_memory.md R206): registers, immediates as they
stand or zero-extended, the shifts' source, the one addressing mode, and the decimal split of R12. -/

namespace Sys2Proof.Machine

/-- `V[r]` (R11). -/
def State.getV (s : State) (r : Reg) : Byte := s.v[r.val]

/-- `V[r] <- b` (R11). -/
def State.setV (s : State) (r : Reg) (b : Byte) : State := { s with v := s.v.set r.val b }

/-- R93: an address field, zero-extended to 16 bits. -/
def addrWord (nnn : Addr) : Word := nnn.setWidth 16

/-- R10 `zext_16` of a byte. -/
def byteWord (b : Byte) : Word := b.setWidth 16

/-- R183: the register a shift reads, `y` if SHIFT_READS_VY, else `x`. -/
def shiftSource (readsVy : Bool) (x y : Reg) : Reg := if readsVy then y else x

/-- R206: the effective address of byte `k` of a data access, on unbounded integers (R66). -/
def dataAddr (s : State) (k : Nat) : Nat := s.i.toNat + k

/-- R23: the registers `V[0]` to `V[x]`, in rising order. -/
def regsUpTo (s : State) (x : Reg) : List Byte := s.v.toList.take (x.val + 1)

/-- R205: registers `k`, `k+1`, … take the given bytes. -/
def putRegs (v : Vector Byte 16) (k : Nat) : List Byte → Vector Byte 16
  | [] => v
  | b :: bs => putRegs (v.setIfInBounds k b) (k + 1) bs

/-- R12 `splitDecimal`: hundreds, tens and ones of a byte. -/
def splitDecimal (b : Byte) : Byte × Byte × Byte :=
  (BitVec.ofNat 8 (b.toNat / 100), BitVec.ofNat 8 (b.toNat / 10 % 10), BitVec.ofNat 8 (b.toNat % 10))

/-- R202: the address of the glyph of `b`, `0x50 + 5*b`, with no mask on `b`. -/
def glyphAddr (b : Byte) : Word := 0x0050 + 5 * byteWord b

/-- R225: the column of a sprite's origin, `V[x] & 63`. -/
def originColumn (b : Byte) : Nat := (b &&& 63).toNat

/-- R225: the row of a sprite's origin, `V[y] & 31` (90_conflicts.md C2). -/
def originRow (b : Byte) : Nat := (b &&& 31).toNat

end Sys2Proof.Machine
end

