-- ==== Sys2Proof/Machine/Ops.lean ====
section
/-! DEFINITION. The named operations over memory, registers, stack, display, timer and host: every meaning is built of
them. Memory: 20_memory.md; conditions: 60_exceptions.md; stack: 41_control_flow.md; display: 44_display.md; poll:
40_fetch_decode_step.md; tick: 45_timer_key.md; load: 70_reset_and_hazards.md. -/

namespace Sys2Proof.Machine

/-! Field updates. -/

/-- `I <- w` (R11). -/
def State.setI (s : State) (w : Word) : State := { s with i := w }

/-- `PC <- w` (R11). -/
def State.setPc (s : State) (w : Word) : State := { s with pc := w }

/-- The memory `m` in place of `MEM`. -/
def State.setMem (s : State) (m : Memory) : State := { s with mem := m }

/-- The registers `v` in place of `V`. -/
def State.setRegs (s : State) (v : Vector Byte 16) : State := { s with v := v }

/-- The display `d` in place of `DISP`. -/
def State.setDisp (s : State) (d : Display) : State := { s with disp := d }

/-- `DT <- b` (R11). -/
def State.setDt (s : State) (b : Byte) : State := { s with dt := b }

/-- `ST <- b` (R11). -/
def State.setSt (s : State) (b : Byte) : State := { s with st := b }

/-- `RUN <- r` (R11). -/
def State.setRun (s : State) (r : Run) : State := { s with run := r }

/-- `KEYREG <- r` (R42). -/
def State.setKeyreg (s : State) (r : Reg) : State := { s with keyreg := r }

/-- `DIAG` replaced by `d`. -/
def State.setDiag (s : State) (d : Diag) : State := { s with diag := d }

/-- The outside replaced by `e`. -/
def State.setEnv (s : State) (e : Env) : State := { s with env := e }

/-! Conditions (60_exceptions.md). There is no trap entry and no trap return (R266, R267): a recoverable condition
sets a bit and a halt stops the run. These two are the only ways in; `resetTurn` is the only way out of Halted. -/

/-- R262 `raise Halt(cause)`: `RUN` becomes Halted and the cause is recorded; every other item keeps its value. -/
def State.raiseHalt (s : State) (c : HaltCause) : State := { s with run := .halted, haltCause := c }

/-- R261 `raise Abandon(SOVF)` (R150). -/
def State.abandonOverflow (s : State) : State := s.setDiag { s.diag with sovf := true }

/-- R261 `raise Abandon(SUNF)` (R151). -/
def State.abandonUnderflow (s : State) : State := s.setDiag { s.diag with sunf := true }

/-- R125: `DIAG.UNK <- 1`. -/
def State.markUnknown (s : State) : State := s.setDiag { s.diag with unk := true }

/-! Memory (20_memory.md). `f` is FONT, which decides what an unlisted address reads as (R32). -/

/-- The byte at an address inside `MEM`: the listed one, else the reset content (R32, R71). -/
def Memory.lookup (f : Font) : Memory → Nat → Byte
  | [], a => resetByte f a
  | (k, b) :: m, a => if a = k then b else Memory.lookup f m a

/-- A byte written at an address inside `MEM`, keeping the canonical form: the address in its place, and no entry that
equals the reset content. -/
def Memory.put (f : Font) : Memory → Nat → Byte → Memory
  | [], a, b => if b = resetByte f a then [] else [(a, b)]
  | (k, c) :: m, a, b =>
    if a < k then if b = resetByte f a then (k, c) :: m else (a, b) :: (k, c) :: m
    else if a = k then if b = resetByte f a then m else (a, b) :: m
    else (k, c) :: Memory.put f m a b

/-- Bytes written at consecutive rising addresses (R63, R67). -/
def Memory.putAll (f : Font) : Memory → Nat → List Byte → Memory
  | m, _, [] => m
  | m, a, b :: bs => Memory.putAll f (m.put f a b) (a + 1) bs

/-- The `n` bytes at consecutive rising addresses (R63, R67). -/
def Memory.bytesAt (m : Memory) (f : Font) (a : Nat) : Nat → List Byte
  | 0 => []
  | n + 1 => m.lookup f a :: Memory.bytesAt m f (a + 1) n

/-- R66: an access of `n` bytes at `a` lies wholly inside `MEM`, on unbounded integers; one of no bytes always does. -/
def Memory.inRange (a n : Nat) : Bool := n == 0 || decide (a + n ≤ Config.memSize)

/-- R11 `MemRead(a, 1)`: one byte; `none` where there is no such address. -/
def Memory.read (m : Memory) (f : Font) (a : Nat) : Option Byte :=
  if a < Config.memSize then some (m.lookup f a) else none

/-- R66: the read of `n` bytes at `a`, `none` if any of them is out of range. -/
def Memory.readBytes (m : Memory) (f : Font) (a n : Nat) : Option (List Byte) :=
  if Memory.inRange a n then some (m.bytesAt f a n) else none

/-- R66: the write of bytes at `a`, `none`, and nothing written, if any of them is out of range. -/
def Memory.writeBytes (m : Memory) (f : Font) (a : Nat) (bs : List Byte) : Option Memory :=
  if Memory.inRange a bs.length then some (m.putAll f a bs) else none

/-- The canonical form from the address `lo` up: addresses strictly rising and below 4096, no entry equal to what an
unlisted address reads as. -/
def Memory.wfFrom (f : Font) : Nat → Memory → Bool
  | _, [] => true
  | lo, (a, b) :: m => decide (lo ≤ a) && decide (a < Config.memSize) && (b != resetByte f a) && Memory.wfFrom f (a + 1) m

/-- The canonical form of memory. -/
def Memory.wf (m : Memory) (f : Font) : Bool := m.wfFrom f 0

/-! Memory as a state holds it, its FONT being the state's (R8). -/

/-- R11 `MemRead(a, 1)` in the state. -/
def State.readByte (s : State) (a : Nat) : Option Byte := s.mem.read s.params.font a

/-- R66: the read of `n` bytes at `a` in the state. -/
def State.readBytes (s : State) (a n : Nat) : Option (List Byte) := s.mem.readBytes s.params.font a n

/-- The bytes written at consecutive rising addresses inside `MEM` (R63, R67). -/
def State.putBytes (s : State) (a : Nat) (bs : List Byte) : State := s.setMem (s.mem.putAll s.params.font a bs)

/-- R66: the write of bytes at `a`, `none`, and nothing written, if any of them is out of range. -/
def State.writeBytes (s : State) (a : Nat) (bs : List Byte) : Option State :=
  (s.mem.writeBytes s.params.font a bs).map s.setMem

/-- The state's memory is in canonical form. -/
abbrev State.memWf (s : State) : Prop := s.mem.wf s.params.font = true

/-- R62: the two bytes at `PC`, high byte first, as a word; `none` where R122 halts, at a `PC` above 0x0FFE. -/
def State.fetchWord (s : State) : Option Word :=
  match s.readBytes s.pc.toNat 2 with
  | some [hi, lo] => some (hi ++ lo)
  | _ => none

/-! Program counter (10_state.md R24). -/

/-- `PC <- (PC + 2) mod 65536`: the advance of fetch (R121) and the further one of a taken skip (R156). -/
def State.advancePc (s : State) : State := s.setPc (s.pc + 2)

/-- The skip of R156 to R159. -/
def State.skipIf (s : State) (c : Bool) : State := if c then s.advancePc else s

/-! Call stack (41_control_flow.md). -/

/-- R150 `Push(v)`; `none` is Overflow. -/
def State.push (s : State) (v : Word) : Option State :=
  if h : s.sp.val < 16 then some { s with stack := s.stack.set s.sp.val v, sp := ⟨s.sp.val + 1, by omega⟩ } else none

/-- R151 `Pop()`; `none` is Underflow. -/
def State.pop (s : State) : Option (Word × State) :=
  if h : 0 < s.sp.val then
    some (s.stack[s.sp.val - 1]'(by omega), { s with sp := ⟨s.sp.val - 1, by omega⟩ })
  else none

/-! Random input (42_load_alu_random.md). -/

/-- R190 `draw rnd`: the next random byte, and the state with that byte consumed. -/
def State.drawRandom (s : State) : Byte × State :=
  match s.env.randoms with
  | b :: bs => (b, s.setEnv { s.env with randoms := bs, drawn := s.env.drawn + 1 })
  | [] => (Config.freeRandom s.env.drawn, s.setEnv { s.env with drawn := s.env.drawn + 1 })

/-! Display (44_display.md). -/

/-- R221 `clear()`: the display with every cell 0. -/
def Display.clear : Display := Vector.replicate 32 (Vector.replicate 64 false)

/-- The display and the collision mark while a sprite is drawn (R222). -/
structure Blit where
  disp : Display
  collided : Bool
  deriving DecidableEq, Repr

/-- R222, R223: one source bit of 1 at row `r`, column `c`: the cell is toggled, a 1 turned 0 collides; outside the
32 x 64 cells nothing happens. -/
def Blit.plot (t : Blit) (r c : Nat) : Blit :=
  if h : r < 32 ∧ c < 64 then
    have hr := h.1
    have hc := h.2
    { disp := t.disp.set r (t.disp[r].set c (!t.disp[r][c])), collided := t.collided || t.disp[r][c] }
  else t

/-- R222: the bits of one sprite byte from `bit` on, `k` of them, the most significant first; bit `bit` falls at
column `c0 + bit`. -/
def Blit.drawBits (t : Blit) (b : Byte) (r c0 bit : Nat) : Nat → Blit
  | 0 => t
  | k + 1 => Blit.drawBits (if b.getLsbD (7 - bit) then t.plot r (c0 + bit) else t) b r c0 (bit + 1) k

/-- R222: the rows of a sprite from row `r` down. -/
def Blit.drawRows (t : Blit) (r c0 : Nat) : List Byte → Blit
  | [] => t
  | b :: bs => Blit.drawRows (t.drawBits b r c0 0 8) (r + 1) c0 bs

/-- R222 `drawSprite`: the sprite bytes drawn with origin column `xc` and row `yc`. -/
def drawSprite (d : Display) (rows : List Byte) (xc yc : Nat) : Blit :=
  Blit.drawRows { disp := d, collided := false } yc xc rows

/-- `DISP[r][c]` (R220). -/
def Display.cell (d : Display) (r : Fin 32) (c : Fin 64) : Bool := d[r.val][c.val]

/-- R232 `getPixelAt(x, y)`: the host's read of `DISP[y][x]`; it changes nothing. -/
def State.getPixelAt (s : State) (x : Fin 64) (y : Fin 32) : Bool := Display.cell s.disp y x

/-! Status port (10_state.md R46, 60_exceptions.md R279). -/

/-- What the status port carries. -/
structure Status where
  run : Run
  haltCause : BitVec 3
  diag : BitVec 4
  st : Byte
  pc : Word
  deriving DecidableEq, Repr

/-- The status port: a read that changes nothing. -/
def State.status (s : State) : Status :=
  { run := s.run, haltCause := s.haltCause.code, diag := s.diag.bits, st := s.st, pc := s.pc }

/-! The poll (40_fetch_decode_step.md R130, R131). -/

/-- The answer the host gives to the next poll; `None` when it offers nothing (log 3). -/
def State.nextEvent (s : State) : Event := s.env.events.headD .none

/-- R131: the answer is consumed, whether or not the poll acts on it. -/
def State.dropEvent (s : State) : State := s.setEnv { s.env with events := s.env.events.tail }

/-- R247: the key arrives: `V[KEYREG] <- k; RUN <- Running`. -/
def State.deliverKey (s : State) (k : Byte) : State := (s.setV s.keyreg k).setRun .running

/-- R130: what a poll does with an event. -/
def State.onEvent (s : State) : Event → State
  | .quit => s.raiseHalt .quit
  | .keyboard k => if s.run = .waitingForKey then s.deliverKey k else s
  | .none => s

/-- R130 `Poll()`: takes exactly one event and acts on it. -/
def State.poll (s : State) : State := s.dropEvent.onEvent s.nextEvent

/-! The timer (45_timer_key.md). -/

/-- R248 `Tick()`: `DT` down by one, stopping at 0. -/
def State.tick (s : State) : State := if s.dt = 0 then s else s.setDt (s.dt - 1)

/-! The host's transactions (70_reset_and_hazards.md). -/

/-- R306 `load(bytes)`: the first 3584 bytes to `0x200` up; `LOAD_TRUNC` if more were given. -/
def State.loadProgram (s : State) (bytes : List Byte) : State :=
  let s' := s.putBytes Config.programBase (bytes.take Config.maxLoad)
  if bytes.length > Config.maxLoad then s'.setDiag { s'.diag with loadTrunc := true } else s'

/-- R300 `reset`: every item of R20 at its reset value, in any state, for the machine's parameters (R8). The outside's
coming actions go on; a new boot begins, so `load` is accepted again (R305). -/
def State.resetTurn (s : State) : State := (State.resetWith s.params).setEnv { s.env with started := false }

/-- R305: the core has taken a step since reset. -/
def State.markStarted (s : State) : State := s.setEnv { s.env with started := true }

/-- The outside with `ts` as its coming actions. -/
def State.withTurns (s : State) (ts : List Turn) : State := s.setEnv { s.env with turns := ts }

end Sys2Proof.Machine
end

