-- ==== Sys2Proof/Machine/System.lean ====
section
/-! DEFINITION. The halt word (spec 40_fetch_decode_step.md R123). -/

namespace Sys2Proof.Machine

/-- What a meaning answers (Host/Core.lean). -/
abbrev Result := Host.Outcome State Fault Refusal

/-- HALT0 (R123). The step gives it the state before the advance, so `PC` stays at the zero word. -/
def execHalt0 (s : State) : Result := .next (s.raiseHalt .zeroWord)

end Sys2Proof.Machine
end

