-- ==== Sys2Proof/Machine/Alu.lean ====
section
/-! DEFINITION. Register loads, the ALU family and the random instruction (spec 42_load_alu_random.md). Assignments run
in the order the rule lists them, each reading the registers as the one before left them (R176, decision D9). -/

namespace Sys2Proof.Machine

/-- LD Vx, nn (R170). -/
def execLdVxNn (x : Reg) (nn : Byte) (s : State) : Result := .next (s.setV x nn)

/-- ADD Vx, nn (R171): wraps, no flag. -/
def execAddVxNn (x : Reg) (nn : Byte) (s : State) : Result := .next (s.setV x (s.getV x + nn))

/-- LD Vx, Vy (R177). -/
def execLdVxVy (x y : Reg) (s : State) : Result := .next (s.setV x (s.getV y))

/-- OR Vx, Vy (R178): VF is not written. -/
def execOrVxVy (x y : Reg) (s : State) : Result := .next (s.setV x (s.getV x ||| s.getV y))

/-- AND Vx, Vy (R179): VF is not written. -/
def execAndVxVy (x y : Reg) (s : State) : Result := .next (s.setV x (s.getV x &&& s.getV y))

/-- XOR Vx, Vy (R180): VF is not written. -/
def execXorVxVy (x y : Reg) (s : State) : Result := .next (s.setV x (s.getV x ^^^ s.getV y))

/-- ADD Vx, Vy (R181): both operands read, then `V[x]`, then the carry to VF, which wins when `x` is F. -/
def execAddVxVy (x y : Reg) (s : State) : Result :=
  .next ((s.setV x (s.getV x + s.getV y)).setV flagReg (carryFlag (s.getV x) (s.getV y)))

/-- The order of R182 to R185: the flag first, then `V[x]` from the registers as the flag's write left them. -/
def State.flagThen (s : State) (flag : Byte) (x : Reg) (result : State → Byte) : State :=
  let s' := s.setV flagReg flag
  s'.setV x (result s')

/-- SUB Vx, Vy (R182). -/
def execSubVxVy (x y : Reg) (s : State) : Result :=
  .next (s.flagThen (notBorrowFlag (s.getV x) (s.getV y)) x fun t => t.getV x - t.getV y)

/-- R183: the right shift with SHIFT_READS_VY as an argument. -/
def shiftRight (readsVy : Bool) (x y : Reg) (s : State) : State :=
  let src := shiftSource readsVy x y
  s.flagThen (shiftedOutRight (s.getV src)) x fun t => t.getV src >>> 1

/-- SHR Vx, Vy (R183), with the machine's SHIFT_READS_VY (R8). -/
def execShrVxVy (x y : Reg) (s : State) : Result := .next (shiftRight s.params.shiftReadsVy x y s)

/-- SUBN Vx, Vy (R184). -/
def execSubnVxVy (x y : Reg) (s : State) : Result :=
  .next (s.flagThen (notBorrowFlag (s.getV y) (s.getV x)) x fun t => t.getV y - t.getV x)

/-- R185: the left shift with SHIFT_READS_VY as an argument. -/
def shiftLeft (readsVy : Bool) (x y : Reg) (s : State) : State :=
  let src := shiftSource readsVy x y
  s.flagThen (shiftedOutLeft (s.getV src)) x fun t => t.getV src <<< 1

/-- SHL Vx, Vy (R185), with the machine's SHIFT_READS_VY (R8). -/
def execShlVxVy (x y : Reg) (s : State) : Result := .next (shiftLeft s.params.shiftReadsVy x y s)

/-- RND Vx, nn (R191): one random byte is consumed whatever `nn` is. -/
def execRnd (x : Reg) (nn : Byte) (s : State) : Result :=
  .next (s.drawRandom.2.setV x (s.drawRandom.1 &&& nn))

end Sys2Proof.Machine
end

