-- ==== Sys2Proof/Machine/Control.lean ====
section
/-! DEFINITION. The control-flow instructions (spec 41_control_flow.md). Each is given the state after fetch, in which
`PC` is the instruction's address + 2 (R121). -/

namespace Sys2Proof.Machine

/-- RET (R152): the popped value to `PC`; abandoned on an empty stack (R160). -/
def execRet (s : State) : Result :=
  match s.pop with
  | some (t, s') => .next (s'.setPc t)
  | none => .next s.abandonUnderflow

/-- JP nnn (R153). -/
def execJp (nnn : Addr) (s : State) : Result := .next (s.setPc (addrWord nnn))

/-- CALL nnn (R154): the address after the call pushed, then the jump; abandoned on a full stack (R160). -/
def execCall (nnn : Addr) (s : State) : Result :=
  match s.push s.pc with
  | some s' => .next (s'.setPc (addrWord nnn))
  | none => .next s.abandonOverflow

/-- JP V0, nnn (R155): the sum is not reduced modulo 4096. -/
def execJpV0 (nnn : Addr) (s : State) : Result := .next (s.setPc (byteWord (s.getV 0) + addrWord nnn))

/-- SE Vx, nn (R156). -/
def execSeVxNn (x : Reg) (nn : Byte) (s : State) : Result := .next (s.skipIf (s.getV x == nn))

/-- SNE Vx, nn (R157). -/
def execSneVxNn (x : Reg) (nn : Byte) (s : State) : Result := .next (s.skipIf (s.getV x != nn))

/-- SE Vx, Vy (R158). -/
def execSeVxVy (x y : Reg) (s : State) : Result := .next (s.skipIf (s.getV x == s.getV y))

/-- SNE Vx, Vy (R159). -/
def execSneVxVy (x y : Reg) (s : State) : Result := .next (s.skipIf (s.getV x != s.getV y))

end Sys2Proof.Machine
end

