-- ==== Sys2Proof/Machine/Draw.lean ====
section
/-! DEFINITION. The display instructions (spec 44_display.md R224, R225). -/

namespace Sys2Proof.Machine

/-- CLS (R224): VF is not written. -/
def execCls (s : State) : Result := .next (s.setDisp Display.clear)

/-- The effect of a draw whose sprite bytes have been read: VF cleared, the sprite drawn, VF set on a collision
(R225). The coordinates are those read before VF was cleared. -/
def State.drawAt (s : State) (xc yc : Nat) (rows : List Byte) : State :=
  let s' := s.setV flagReg 0
  let t := drawSprite s'.disp rows xc yc
  let s'' := s'.setDisp t.disp
  if t.collided then s''.setV flagReg 1 else s''

/-- DRW Vx, Vy, n (R225): the range check precedes every change. -/
def execDrw (x y : Reg) (n : Nibble) (s : State) : Result :=
  match s.readBytes (dataAddr s 0) n.toNat with
  | some rows => .next (s.drawAt (originColumn (s.getV x)) (originRow (s.getV y)) rows)
  | none => .next (s.raiseHalt .addrFault)

end Sys2Proof.Machine
end

