-- ==== Sys2Proof/Machine/IndexMemory.lean ====
section
/-! DEFINITION. The index register and memory instructions (spec 43_index_memory.md). The range of a memory access is
checked whole before any effect, and out of range is `Halt(ADDR_FAULT)` (20_memory.md R66). `I` is never changed by an
access (R206). -/

namespace Sys2Proof.Machine

/-- LD I, nnn (R200). -/
def execLdINnn (nnn : Addr) (s : State) : Result := .next (s.setI (addrWord nnn))

/-- ADD I, Vx (R201): wraps modulo 65536, no flag. -/
def execAddIVx (x : Reg) (s : State) : Result := .next (s.setI (s.i + byteWord (s.getV x)))

/-- LD F, Vx (R202). -/
def execLdFVx (x : Reg) (s : State) : Result := .next (s.setI (glyphAddr (s.getV x)))

/-- A store of bytes at `I` up: done whole, or `Halt(ADDR_FAULT)` with nothing written (R66). -/
def State.storeAtI (s : State) (bs : List Byte) : State :=
  match s.writeBytes (dataAddr s 0) bs with
  | some s' => s'
  | none => s.raiseHalt .addrFault

/-- The three digits of a byte, hundreds first (R203, D25). -/
def bcdBytes (b : Byte) : List Byte :=
  match splitDecimal b with
  | (h, t, o) => [h, t, o]

/-- LD B, Vx (R203). -/
def execLdBVx (x : Reg) (s : State) : Result := .next (s.storeAtI (bcdBytes (s.getV x)))

/-- LD [I], Vx (R204). -/
def execLdMemVx (x : Reg) (s : State) : Result := .next (s.storeAtI (regsUpTo s x))

/-- LD Vx, [I] (R205). -/
def execLdVxMem (x : Reg) (s : State) : Result :=
  match s.readBytes (dataAddr s 0) (x.val + 1) with
  | some bs => .next (s.setRegs (putRegs s.v 0 bs))
  | none => .next (s.raiseHalt .addrFault)

end Sys2Proof.Machine
end

