-- ==== Sys2Proof/Machine/TimerKey.lean ====
section
/-! DEFINITION. The timer, sound and key instructions (spec 45_timer_key.md). -/

namespace Sys2Proof.Machine

/-- LD Vx, DT (R240). -/
def execLdVxDt (x : Reg) (s : State) : Result := .next (s.setV x s.dt)

/-- LD Vx, K, first half (R246): the second half is `State.deliverKey`, at the poll that takes the key (R247). -/
def execLdVxK (x : Reg) (s : State) : Result := .next ((s.setKeyreg x).setRun .waitingForKey)

/-- LD DT, Vx (R241). -/
def execLdDtVx (x : Reg) (s : State) : Result := .next (s.setDt (s.getV x))

/-- LD ST, Vx (R242). -/
def execLdStVx (x : Reg) (s : State) : Result := .next (s.setSt (s.getV x))

end Sys2Proof.Machine
end

