-- ==== Sys2Proof/Machine/Cycle.lean ====
section
/-! DEFINITION. The step of the core (spec 40_fetch_decode_step.md R120 to R127) and the turns of the other agents
(20_memory.md R70, R72). Step.lean only calls these. -/

namespace Sys2Proof.Machine

/-- R121, R265: the end of a Running step. A halt inside Execute ends the step with no poll; otherwise the poll
follows. -/
def afterExecute (s : State) : State := if s.run = .halted then s else s.poll

/-- R121: the state an instruction executes in, `PC` advanced past it; the halt word is met before the advance
(R94, R123). -/
def beforeExecute (i : Instr) (s : State) : State := if i = .halt0 then s else s.advancePc

/-- R121, R124: an instruction executed in a Running step, and the poll after it. -/
def runInstr (i : Instr) (s : State) : Result :=
  match exec i (beforeExecute i s) with
  | .next s' => .next (afterExecute s')
  | .fault f => .fault f
  | .refused r => .refused r

/-- R125: an unknown opcode, a no-op that sets `DIAG.UNK`; the poll follows. -/
def runUnknown (s : State) : Result := .next (afterExecute s.advancePc.markUnknown)

/-- R121: decode and execute a fetched word. -/
def runWord (w : Word) (s : State) : Result :=
  match decodeWord w with
  | .ok i => runInstr i s
  | .error _ => runUnknown s

/-- R121, R122: the Running step. -/
def stepRunning (s : State) : Result :=
  match s.fetchWord with
  | some w => runWord w s
  | none => .next (s.raiseHalt .fetchFault)

/-- R126: the WaitingForKey step, the poll alone. -/
def stepWaiting (s : State) : Result := .next s.poll

/-- R127: the Halted step, nothing. -/
def stepHalted (s : State) : Result := .next s

/-- R120: one step of the core. -/
def coreTurn (s : State) : Result :=
  match s.run with
  | .running => stepRunning s.markStarted
  | .waitingForKey => stepWaiting s.markStarted
  | .halted => stepHalted s

/-- R305, R306: `load`, only before the first step of the core; the port does not accept a later one (U18). -/
def loadTurn (bytes : List Byte) (s : State) : Result :=
  if s.env.started then .refused .loadAfterFirstStep else .next (s.loadProgram bytes)

/-- R70, R72: one atomic action of one agent. -/
def takeTurn (t : Turn) (s : State) : Result :=
  match t with
  | .core => coreTurn s
  | .tick => .next s.tick
  | .reset => .next s.resetTurn
  | .load bytes => loadTurn bytes s

/-- The next coming action; the core's when none is listed (log 4). -/
def State.nextTurn (s : State) : Turn := s.env.turns.headD .core

/-- The machine's step: the next turn, removed from the coming ones and taken. -/
def machineStep (s : State) : Result := takeTurn s.nextTurn (s.withTurns s.env.turns.tail)

/-! Placing one instruction where the next step fetches (the host's question; log 10). -/

/-- The core takes the next turn. -/
def State.coreIsNext (s : State) : State :=
  match s.env.turns with
  | [] => s
  | .core :: _ => s
  | t :: ts => s.withTurns (.core :: t :: ts)

/-- The next core step fetches: Running, and `PC` where a fetch is possible. -/
def State.readyToFetch (s : State) : State :=
  let s' := if s.run = .running then s else { s with run := .running, haltCause := .none }
  if s'.pc.toNat + 2 ≤ Config.memSize then s' else s'.setPc (BitVec.ofNat 16 Config.programBase)

/-- The bytes of a word stored at `PC`, high byte first. -/
def State.placeWord (s : State) (w : Word) : State :=
  s.putBytes s.pc.toNat [highByte w, lowByte w]

/-- The word placed so that the very next step fetches and runs it; where the state is already fit for that, only
memory changes. -/
def State.withNextWord (s : State) (w : Word) : State := s.coreIsNext.readyToFetch.placeWord w

end Sys2Proof.Machine
end

