-- ==== Sys2Proof/Machine/Step.lean ====
section
/-! DEFINITION. The machine's step, and the placing of a fetched word (the host's fixed names). -/

namespace Sys2Proof.Machine

/-- One step: one atomic action of one agent (Machine/Cycle.lean). -/
def step (s : State) : Host.Outcome State Fault Refusal := machineStep s

/-- `s` with the instruction whose bits are `w` where the next step fetches (log 10). -/
def State.withFetchWord (s : State) (nbits w : Nat) : State := s.withNextWord (tableWord nbits w)

end Sys2Proof.Machine
end

