-- ==== Sys2Proof/Safety.lean ====
section
/-! DEFINITION. The terms in which claims about the machine are made: how a run ends, the invariant, what a frame keeps,
and the picture a sprite makes. -/

namespace Sys2Proof.Machine

/-! The end of a run (spec 40_fetch_decode_step.md R132). -/

/-- The run is over exactly when `RUN` is Halted (R132). -/
abbrev State.ended (s : State) : Prop := s.run = .halted

/-- The two ends the document has; a claim of correct termination requires one of them (R132). -/
abbrev State.endedWell (s : State) : Prop := s.ended ∧ (s.haltCause = .zeroWord ∨ s.haltCause = .quit)

/-- The two ends that are faults (R260). -/
abbrev State.endedByFault (s : State) : Prop := s.ended ∧ (s.haltCause = .fetchFault ∨ s.haltCause = .addrFault)

/-- Nothing recoverable has gone wrong: the cautious reading of D6, D7, U5 to U7. -/
abbrev State.undisturbed (s : State) : Prop := s.diag = ⟨false, false, false, false⟩

/-! The invariant that reset establishes and every step keeps. -/

/-- R41: `HALT_CAUSE` is NONE exactly when `RUN` is not Halted. -/
abbrev State.causeAgrees (s : State) : Prop := s.run = .halted ↔ s.haltCause ≠ .none

/-- R26: the largest `PC` that can be reached. -/
abbrev State.pcBounded (s : State) : Prop := s.pc.toNat ≤ 0x10FE

/-- R152: every live stack entry is an address after a `CALL`, at most 0x1000. -/
abbrev State.stackBounded (s : State) : Prop := ∀ k : Fin 16, k.val < s.sp.val → s.stack[k.val].toNat ≤ 0x1000

/-- R305: a core that waits or has halted has taken a step, so no `load` is accepted any more. -/
abbrev State.startedAgrees (s : State) : Prop := s.run ≠ .running → s.env.started = true

/-- The invariant. -/
abbrev State.Inv (s : State) : Prop :=
  s.memWf ∧ s.causeAgrees ∧ s.pcBounded ∧ s.stackBounded ∧ s.startedAgrees

/-! Frames: what two states share. -/

/-- Every general register but those listed is the same. -/
def regsKept (but : List Reg) (s t : State) : Prop := ∀ r : Reg, r ∉ but → t.getV r = s.getV r

/-- Every byte of memory outside the addresses of `stored` reads the same. -/
def memKept (stored : Nat → Prop) (s t : State) : Prop := ∀ a : Nat, ¬ stored a → t.readByte a = s.readByte a

/-- The stored bytes of a form that stores nothing. -/
def noBytes : Nat → Prop := fun _ => False

/-- The call stack is the same. -/
def stackKept (s t : State) : Prop := t.stack = s.stack ∧ t.sp = s.sp

/-- The timers are the same. -/
def timersKept (s t : State) : Prop := t.dt = s.dt ∧ t.st = s.st

/-- The run state and its companions are the same: `RUN`, `HALT_CAUSE`, `KEYREG`, `DIAG`. -/
def controlKept (s t : State) : Prop :=
  t.run = s.run ∧ t.haltCause = s.haltCause ∧ t.keyreg = s.keyreg ∧ t.diag = s.diag

/-! The picture a sprite makes (spec 44_display.md R222, R223), said cell by cell. -/

/-- Whether the sprite `rows` with origin column `xc` and row `yc` has a 1 at row `r`, column `c`: row `r - yc` of the
sprite, bit `c - xc` from the most significant. -/
def spriteBit (rows : List Byte) (xc yc r c : Nat) : Bool :=
  decide (yc ≤ r) && decide (xc ≤ c) && decide (c < xc + 8) && (rows.getD (r - yc) 0).getLsbD (7 - (c - xc))

end Sys2Proof.Machine
end

