-- ==== Sys2Proof/Certificates/Slice0/Obligations.lean ====
section
/-! DEFINITION. The statements for the provers. The rules cited are those of spec/; where a clause is a decision of the
spec's own (D<n> of 92_eei_decisions.md) the docstring says so. In every statement about `exec` the state is the one
after fetch, in which `PC` is the instruction's address + 2 (R121), but for HALT0. -/

open Sys2Proof Sys2Proof.Machine

/-! ## Terms used below -/

namespace Sys2Proof.Claims

/-- The word numbered `w` decodes to `i`: how a statement says an instruction's encoding, `0x8004 + 0x100*x + 0x10*y`
for the pattern 8XY4. -/
abbrev Decodes (w : Nat) (i : Instr) : Prop := decodeWord (BitVec.ofNat 16 w) = .ok i

/-- The outside after the next turn, a core step, has been taken. -/
abbrev envAfterCore (s : State) : Env := { s.env with turns := s.env.turns.tail, started := true }

/-- The next turn is the core's, and it is Running. -/
abbrev CoreRuns (s : State) : Prop := s.nextTurn = .core ∧ s.run = .running

/-- The two bytes at `PC` decode to `i` (R62, R90). -/
abbrev Fetches (s : State) (i : Instr) : Prop :=
  ∃ hi lo, s.readByte s.pc.toNat = some hi ∧ s.readByte (s.pc.toNat + 1) = some lo ∧ decode [hi, lo] = .ok (i, [])

/-- The two bytes at `PC` decode to no instruction. -/
abbrev FetchesUnknown (s : State) : Prop :=
  ∃ hi lo, s.readByte s.pc.toNat = some hi ∧ s.readByte (s.pc.toNat + 1) = some lo ∧
    decode [hi, lo] = .error (.unknownOpcode (wordOf hi lo))

/-- How many bytes an instruction's data access covers (R65); 0 for one that has none. -/
def accessSize : Instr → Nat
  | .drw _ _ n => n.toNat
  | .ldBVx _ => 3
  | .ldMemVx x => x.val + 1
  | .ldVxMem x => x.val + 1
  | _ => 0

/-- R66: the instruction's data access includes an address above 0x0FFF. -/
abbrev AccessFaults (i : Instr) (s : State) : Prop := accessSize i ≠ 0 ∧ 0x0FFF < s.i.toNat + accessSize i - 1

/-- R222: the sprite of `n` rows at `I` with origin column `xc` and row `yc` has a 1 at row `r`, column `c`. -/
def spriteAt (s : State) (n xc yc r c : Nat) : Bool :=
  decide (yc ≤ r) && decide (r < yc + n) && decide (xc ≤ c) && decide (c < xc + 8) &&
    (s.readByte (s.i.toNat + (r - yc))).any (fun b => b.getLsbD (7 - (c - xc)))

/-- The register-only instructions, with the registers each writes (R22, R23). -/
def registerDests : Instr → Option (List Reg)
  | .ldVxNn x _ => some [x]
  | .addVxNn x _ => some [x]
  | .ldVxVy x _ => some [x]
  | .orVxVy x _ => some [x]
  | .andVxVy x _ => some [x]
  | .xorVxVy x _ => some [x]
  | .addVxVy x _ => some [x, 0xF]
  | .subVxVy x _ => some [x, 0xF]
  | .shrVxVy x _ => some [x, 0xF]
  | .subnVxVy x _ => some [x, 0xF]
  | .shlVxVy x _ => some [x, 0xF]
  | .ldVxDt x => some [x]
  | .rnd x _ => some [x]
  | _ => none

/-- Jumps and skips (R153, R155 to R159): `PC` alone. -/
def pcOnly : Instr → Bool
  | .jp _ => true
  | .jpV0 _ => true
  | .seVxNn _ _ => true
  | .sneVxNn _ _ => true
  | .seVxVy _ _ => true
  | .sneVxVy _ _ => true
  | _ => false

/-- The index instructions (R200 to R202): `I` alone. -/
def indexOnly : Instr → Bool
  | .ldINnn _ => true
  | .addIVx _ => true
  | .ldFVx _ => true
  | _ => false

/-- The instructions that can store to memory (R23). -/
def isStore : Instr → Bool
  | .ldBVx _ => true
  | .ldMemVx _ => true
  | _ => false

/-- The instructions that can write the display (R29). -/
def isPainter : Instr → Bool
  | .cls => true
  | .drw _ _ _ => true
  | _ => false

/-- The six instructions that write VF as a flag whatever `x` and `y` are (R22). -/
def isFlagWriter : Instr → Bool
  | .addVxVy _ _ => true
  | .subVxVy _ _ => true
  | .shrVxVy _ _ => true
  | .subnVxVy _ _ => true
  | .shlVxVy _ _ => true
  | .drw _ _ _ => true
  | _ => false

/-- The field `x` of the instructions that write `V[x]` in their own step (R23); for FX65 the last register written. -/
def writtenX : Instr → Option Reg
  | .ldVxMem x => some x
  | i => (registerDests i).bind List.head?

/-- R32: memory zeroed and FONT copied in at 0x050 to 0x09F, FONT being the state's parameter (R8). -/
def FontInZeroedMemory (s : State) : Prop :=
  (∀ k : Fin 80, s.readByte (0x050 + k.val) = some s.params.font[k.val]) ∧
  (∀ a : Nat, a < 4096 → a < 0x050 ∨ 0x09F < a → s.readByte a = some 0)

/-- The same state but for stack entries at or above `SP` (R28). -/
abbrev sameLive (s t : State) : Prop :=
  t = { s with stack := t.stack } ∧ ∀ k : Fin 16, k.val < s.sp.val → t.stack[k.val] = s.stack[k.val]

end Sys2Proof.Claims

open Sys2Proof.Claims

/-! ## Encoding -/

/-- R105, R90, R91, R92: decoding the bytes of an instruction gives it back, every operand at every value, and leaves
the bytes after it. -/
def Obligations.DecodeInvertsEncode : Prop :=
  ∀ (i : Instr) (rest : List Byte), decode (encodeBytes i ++ rest) = .ok (i, rest)

/-- R94, R102: a word that decodes is the word of the instruction it decodes to, so each word has one meaning. -/
def Obligations.EncodeInvertsDecode : Prop :=
  ∀ (w : Word) (i : Instr), decodeWord w = .ok i → encode i = w

/-- R94, R96: the decoder's dispatch agrees with the table's `match` and `mask`: the instruction's row is selected and
no other is, and a word is refused exactly when it selects no row. -/
def Obligations.DecoderFollowsOpcodeTable : Prop :=
  ∀ w : Word,
    (∀ i, decodeWord w = .ok i →
      i.row.selectedBy w = true ∧ ∀ r ∈ opcodeTable, r.selectedBy w = true → r = i.row) ∧
    (∀ e, decodeWord w = .error e →
      e = .unknownOpcode w ∧ ∀ r ∈ opcodeTable, r.selectedBy w = false)

/-- R100: the unknown words, family by family. -/
def Obligations.UnknownWordsAreThoseListed : Prop :=
  ∀ w : Word, decodeWord w = .error (.unknownOpcode w) ↔
    (w.toNat / 0x1000 = 0x0 ∧ w.toNat ≠ 0x0000 ∧ w.toNat ≠ 0x00E0 ∧ w.toNat ≠ 0x00EE) ∨
    (w.toNat / 0x1000 = 0x5 ∧ w.toNat % 16 ≠ 0) ∨
    (w.toNat / 0x1000 = 0x9 ∧ w.toNat % 16 ≠ 0) ∨
    (w.toNat / 0x1000 = 0x8 ∧ w.toNat % 16 ∈ [0x8, 0x9, 0xA, 0xB, 0xC, 0xD, 0xF]) ∨
    (w.toNat / 0x1000 = 0xE) ∨
    (w.toNat / 0x1000 = 0xF ∧ w.toNat % 256 ∉ [0x07, 0x0A, 0x15, 0x18, 0x1E, 0x29, 0x33, 0x55, 0x65])

/-- R96, R94: words written out from the patterns of the table, one of each format, and three unknown ones. -/
def Obligations.WrittenOutWordsDecode : Prop :=
  decodeTableWord 16 0b0000000011101110 = some .ret ∧
  decodeTableWord 16 0b0001101010111100 = some (.jp 0xABC) ∧
  decodeTableWord 16 0b0011001000110100 = some (.seVxNn 0x2 0x34) ∧
  decodeTableWord 16 0b1000111100010100 = some (.addVxVy 0xF 0x1) ∧
  decodeTableWord 16 0b1101000100100101 = some (.drw 0x1 0x2 0x5) ∧
  decodeTableWord 16 0b1111001101100101 = some (.ldVxMem 0x3) ∧
  decodeTableWord 16 0b0101000100100001 = none ∧
  decodeTableWord 16 0b1110000110011110 = none ∧
  decodeTableWord 16 0b1000000100101000 = none

/-- R12: the bit-field utilities and the decimal split, as arithmetic on the word and the byte. -/
def Obligations.BitFieldUtilitiesAreExact : Prop :=
  (∀ w : Word,
    (highNibble w).toNat = w.toNat / 0x1000 ∧
    (lowNibbleOfHighByte w).toNat = w.toNat / 0x100 % 16 ∧
    (highNibbleOfLowByte w).toNat = w.toNat / 0x10 % 16 ∧
    (lowNibbleOfLowByte w).toNat = w.toNat % 16 ∧
    (lowByte w).toNat = w.toNat % 0x100 ∧
    (twelveBits w).toNat = w.toNat % 0x1000) ∧
  (∀ b h t o : Byte, splitDecimal b = (h, t, o) →
    h.toNat = b.toNat / 100 ∧ t.toNat = b.toNat / 10 % 10 ∧ o.toNat = b.toNat % 10 ∧
    h.toNat ≤ 2 ∧ t.toNat ≤ 9 ∧ o.toNat ≤ 9 ∧ 100 * h.toNat + 10 * t.toNat + o.toNat = b.toNat) ∧
  twelveBits 0x12FF = 0x2FF ∧ lowByte 0x12FF = 0xFF ∧ highNibble 0x700A = 0x7 ∧ splitDecimal 157 = (1, 5, 7)

/-! ## The step -/

/-- R121, R124: when the core runs and the two bytes at `PC` decode to `i`, the step is `exec` of `i`, with `PC`
advanced past the word before it (not for the zero word, R94) and the poll after it (not after a halt). The model's own
bookkeeping of the outside (log 1, log 9) is the first line. -/
def Obligations.StepRunsDecodedInstruction : Prop :=
  ∀ (s : State) (i : Instr), CoreRuns s → Fetches s i →
    let s0 : State := { s with env := envAfterCore s }
    let s1 : State := if i = .halt0 then s0 else { s0 with pc := s0.pc + 2 }
    step s = match exec i s1 with
      | .next t => .next (if t.run = .halted then t else t.poll)
      | .fault f => .fault f
      | .refused r => .refused r

/-- 20_memory.md sections 2 and 3: a fetch reads two bytes, the one at the lower address high, at any `PC`, even or odd
(decision D24 of the spec, log 11), that leaves both inside memory, and no other (decision D4 of the spec, log 11). -/
def Obligations.FetchIsBigEndian : Prop :=
  ∀ (s : State) (w : Word), s.fetchWord = some w ↔
    ∃ hi lo : Byte, s.readByte s.pc.toNat = some hi ∧ s.readByte (s.pc.toNat + 1) = some lo ∧
      w.toNat = 256 * hi.toNat + lo.toNat

/-- 40_fetch_decode_step.md section 1 (decision D4): a fetch above 0x0FFE halts with FETCH_FAULT; nothing else changes
and no event is taken. -/
def Obligations.FetchOutOfRangeHalts : Prop :=
  ∀ s : State, CoreRuns s → 0x0FFE < s.pc.toNat →
    step s = .next { s with run := .halted, haltCause := .fetchFault, env := envAfterCore s }

/-- 40_fetch_decode_step.md section 1 (decision D5): the zero word halts with ZERO_WORD; `PC` stays and no event is
taken. The meaning of HALT0 is that halt. -/
def Obligations.ZeroWordHalts : Prop :=
  (∀ s : State, CoreRuns s → s.readByte s.pc.toNat = some 0 → s.readByte (s.pc.toNat + 1) = some 0 →
    step s = .next { s with run := .halted, haltCause := .zeroWord, env := envAfterCore s }) ∧
  (∀ s : State, exec .halt0 s = .next { s with run := .halted, haltCause := .zeroWord })

/-- 40_fetch_decode_step.md section 2 (decision D7): an unknown word changes nothing but `PC` and `DIAG.UNK`, and the
poll follows. -/
def Obligations.UnknownWordIsNoOp : Prop :=
  ∀ s : State, CoreRuns s → FetchesUnknown s →
    step s = .next (State.poll { s with
      pc := s.pc + 2, diag := { s.diag with unk := true }, env := envAfterCore s })

/-- R126: while WaitingForKey a core step is the poll alone, no word is fetched and `PC` does not move; without a key or
a quit the wait goes on; the timer keeps running. -/
def Obligations.WaitingStepOnlyPolls : Prop :=
  (∀ s : State, s.nextTurn = .core → s.run = .waitingForKey →
    ∃ t, step s = .next t ∧ t = State.poll { s with env := envAfterCore s } ∧ t.pc = s.pc ∧ t.mem = s.mem ∧
      (s.nextEvent = .none → t.run = .waitingForKey)) ∧
  (∀ s : State, s.nextTurn = .tick → s.run = .waitingForKey →
    ∃ t, step s = .next t ∧ t.run = .waitingForKey ∧ t.dt.toNat = s.dt.toNat - 1)

/-- 60_exceptions.md section 4 and 40_fetch_decode_step.md section 3 (decision D26): a core step in Halted changes
nothing (but the list of coming turns, the model's own), and only a reset leaves Halted. -/
def Obligations.HaltedIsTerminal : Prop :=
  (∀ s : State, s.nextTurn = .core → s.run = .halted →
    step s = .next { s with env := { s.env with turns := s.env.turns.tail } }) ∧
  (∀ s t : State, s.run = .halted → s.nextTurn ≠ .reset → step s = .next t →
    t.run = .halted ∧ t.haltCause = s.haltCause)

/-- R130: a poll takes exactly one event and acts on it, seeing the `RUN` the instruction of its step left. -/
def Obligations.PollTakesOneEvent : Prop :=
  (∀ (s : State) (es : List Event), s.env.events = .quit :: es →
    s.poll = { s with run := .halted, haltCause := .quit, env := { s.env with events := es } }) ∧
  (∀ (s : State) (k : Byte) (es : List Event), s.env.events = .keyboard k :: es → s.run = .waitingForKey →
    ∃ t, s.poll = t ∧ t.getV s.keyreg = k ∧ regsKept [s.keyreg] s t ∧
      t = { s with v := t.v, run := .running, env := { s.env with events := es } }) ∧
  (∀ (s : State) (k : Byte) (es : List Event), s.env.events = .keyboard k :: es → s.run = .running →
    s.poll = { s with env := { s.env with events := es } }) ∧
  (∀ (s : State) (es : List Event), s.env.events = .none :: es →
    s.poll = { s with env := { s.env with events := es } }) ∧
  (∀ (s : State) (x : Reg) (k : Byte) (es : List Event), CoreRuns s → Fetches s (.ldVxK x) →
    s.env.events = .keyboard k :: es →
    ∃ t, step s = .next t ∧ t.getV x = k ∧ t.run = .running)

/-- 20_memory.md section 4 (decision D3), 60_exceptions.md section 3: an instruction whose data access leaves memory
changes nothing but `PC` (advanced by 2) and halts with ADDR_FAULT, and no event is taken. -/
def Obligations.AddressFaultIsPrecise : Prop :=
  (∀ (i : Instr) (s : State), AccessFaults i s →
    exec i s = .next { s with run := .halted, haltCause := .addrFault }) ∧
  (∀ (i : Instr) (s : State), CoreRuns s → Fetches s i → AccessFaults i s →
    step s = .next { s with
      pc := s.pc + 2, run := .halted, haltCause := .addrFault, env := envAfterCore s })

/-! ## Timer, host, reset -/

/-- R248: a tick takes `DT` down by one, stopping at 0, in every run state, and changes nothing else (but the list of
coming turns, the model's own). -/
def Obligations.TickCountsDownToZero : Prop :=
  ∀ s : State, s.nextTurn = .tick →
    ∃ t, step s = .next t ∧ t.dt.toNat = s.dt.toNat - 1 ∧
      t = { s with dt := t.dt, env := { s.env with turns := s.env.turns.tail } }

/-- 45_timer_key.md section 3 (decision D17): nothing but LD DT, Vx makes `DT` greater. -/
def Obligations.DelayTimerRisesOnlyByLdDt : Prop :=
  ∀ s t : State, step s = .next t → s.dt.toNat < t.dt.toNat →
    CoreRuns s ∧ ∃ x, Fetches s (.ldDtVx x) ∧ t.dt = s.getV x

/-- 70_reset_and_hazards.md section 2 (decision D19): a load before the first step stores the first 3584 bytes from
0x200 up, marks LOAD_TRUNC if more were given, and changes nothing else. -/
def Obligations.LoadCopiesProgram : Prop :=
  ∀ (s : State) (bytes : List Byte), s.nextTurn = .load bytes → s.env.started = false → s.memWf →
    ∃ t, step s = .next t ∧ t.memWf ∧
      (∀ (k : Nat) (h : k < bytes.length), k < 3584 → t.readByte (0x200 + k) = some bytes[k]) ∧
      memKept (fun a => 0x200 ≤ a ∧ a < 0x200 + min bytes.length 3584) s t ∧
      t.diag = { s.diag with loadTrunc := s.diag.loadTrunc || decide (3584 < bytes.length) } ∧
      t = { s with mem := t.mem, diag := t.diag, env := { s.env with turns := s.env.turns.tail } }

/-- 70_reset_and_hazards.md section 2 (decision D19), 30_encoding.md section 4: the one thing that has no next state is
a load after the first step, which is refused; no instruction and no word stops the machine. -/
def Obligations.OnlyLateLoadHasNoNextState : Prop :=
  (∀ (s : State) (bytes : List Byte), s.nextTurn = .load bytes → s.env.started = true →
    step s = .refused .loadAfterFirstStep) ∧
  (∀ s : State, (∀ bytes, s.nextTurn = .load bytes → s.env.started = false) → ∃ t, step s = .next t)

/-- 70_reset_and_hazards.md section 1: reset, in any state, gives the reset state (here with the outside's coming actions,
the model's own, log 1); it is the only way to leave Halted and the only way to clear a bit of `DIAG`. The zeros of the
reset state that decision D14 gives are log 7. FONT is the machine's parameter, whatever its bytes are (R8). -/
def Obligations.OnlyResetRevivesAndClears : Prop :=
  (∀ s : State, s.nextTurn = .reset →
    ∃ t, step s = .next t ∧
      t = { State.resetWith s.params with env := { s.env with turns := s.env.turns.tail, started := false } } ∧
      t.pc = 0x200 ∧ t.sp.val = 0 ∧ t.dt = 0 ∧ FontInZeroedMemory t) ∧
  (∀ s t : State, step s = .next t → s.nextTurn ≠ .reset →
    (s.run = .halted → t.run = .halted) ∧
    (s.diag.unk = true → t.diag.unk = true) ∧ (s.diag.sovf = true → t.diag.sovf = true) ∧
    (s.diag.sunf = true → t.diag.sunf = true) ∧ (s.diag.loadTrunc = true → t.diag.loadTrunc = true))

/-- 10_state.md section 9 and 00_scope.md section 4: the state after reset for all values of the parameters SHIFT_READS_VY
and FONT. `PC`, `SP`, `DT`, `RUN` and memory are the source's; the zeros of `V`, `I`, `DISP`, `ST`, `STACK`, `KEYREG`,
`HALT_CAUSE`, `DIAG` are decision D14 (log 7). `State.reset` has the default parameters (logs 5, 6). -/
def Obligations.ResetStateValues : Prop :=
  (∀ p : Params,
    let s := State.resetWith p
    s.params = p ∧ s.pc = 0x0200 ∧ s.sp.val = 0 ∧ s.dt = 0 ∧ s.run = .running ∧
    (∀ r : Reg, s.getV r = 0) ∧ s.i = 0 ∧ s.st = 0 ∧ (∀ k : Fin 16, s.stack[k.val] = 0) ∧
    (∀ (x : Fin 64) (y : Fin 32), s.getPixelAt x y = false) ∧
    s.keyreg = 0 ∧ s.haltCause.code = 0 ∧ s.diag.bits = 0 ∧ FontInZeroedMemory s) ∧
  State.reset = State.resetWith Params.default ∧ Params.default.shiftReadsVy = true

/-! ## Control flow -/

/-- R28, R150, R151: what is pushed is popped, last in first out, and the entries below are untouched. -/
def Obligations.PushThenPopIsLifo : Prop :=
  (∀ (s : State) (a : Word), s.sp.val < 16 →
    ∃ t u, s.push a = some t ∧ t.sp.val = s.sp.val + 1 ∧ t.pop = some (a, u) ∧ u.sp = s.sp ∧ sameLive s u) ∧
  (∀ (s : State) (a : Word), s.sp.val = 16 → s.push a = none) ∧
  (∀ s : State, s.sp.val = 0 → s.pop = none)

/-- 41_control_flow.md section 2: CALL pushes the address of the word after it and jumps; at depth 16 it is abandoned and
SOVF is set (decision D6 of the spec, log 11). -/
def Obligations.CallPushesReturnAddress : Prop :=
  ∀ (nnn : Addr) (s : State),
    Decodes (0x2000 + nnn.toNat) (.call nnn) ∧
    (∀ h : s.sp.val < 16, ∃ t, exec (.call nnn) s = .next t ∧ t.pc.toNat = nnn.toNat ∧
      t.sp.val = s.sp.val + 1 ∧ t.stack[s.sp.val] = s.pc ∧
      (∀ k : Fin 16, k.val ≠ s.sp.val → t.stack[k.val] = s.stack[k.val]) ∧
      t = { s with pc := t.pc, sp := t.sp, stack := t.stack }) ∧
    (s.sp.val = 16 → exec (.call nnn) s = .next { s with diag := { s.diag with sovf := true } })

/-- 41_control_flow.md section 2: RET pops the top of the stack into `PC`; on an empty stack it is abandoned and SUNF is
set (decision D6 of the spec, log 11). -/
def Obligations.RetPopsReturnAddress : Prop :=
  ∀ s : State,
    Decodes 0x00EE .ret ∧
    (∀ h : 0 < s.sp.val, ∃ t, exec .ret s = .next t ∧ t.pc = s.stack[s.sp.val - 1]'(by omega) ∧
      t.sp.val = s.sp.val - 1 ∧ t = { s with pc := t.pc, sp := t.sp }) ∧
    (s.sp.val = 0 → exec .ret s = .next { s with diag := { s.diag with sunf := true } })

/-- R153, R155: JP puts the address into `PC`; JP V0 adds `V0` to it, without reduction modulo 4096. -/
def Obligations.JumpsSetPc : Prop :=
  ∀ (nnn : Addr) (s : State),
    Decodes (0x1000 + nnn.toNat) (.jp nnn) ∧ Decodes (0xB000 + nnn.toNat) (.jpV0 nnn) ∧
    (∃ t, exec (.jp nnn) s = .next t ∧ t.pc.toNat = nnn.toNat ∧ t = { s with pc := t.pc }) ∧
    (∃ t, exec (.jpV0 nnn) s = .next t ∧ t.pc.toNat = (s.getV 0).toNat + nnn.toNat ∧ t = { s with pc := t.pc })

/-- R156, R157, R158, R159: a skip adds 2 to `PC` when its condition holds and does nothing when it does not. -/
def Obligations.SkipsPassOneWord : Prop :=
  ∀ (x y : Reg) (nn : Byte) (s : State),
    Decodes (0x3000 + 0x100 * x.val + nn.toNat) (.seVxNn x nn) ∧
    Decodes (0x4000 + 0x100 * x.val + nn.toNat) (.sneVxNn x nn) ∧
    Decodes (0x5000 + 0x100 * x.val + 0x10 * y.val) (.seVxVy x y) ∧
    Decodes (0x9000 + 0x100 * x.val + 0x10 * y.val) (.sneVxVy x y) ∧
    exec (.seVxNn x nn) s = .next { s with pc := if s.getV x = nn then s.pc + 2 else s.pc } ∧
    exec (.sneVxNn x nn) s = .next { s with pc := if s.getV x = nn then s.pc else s.pc + 2 } ∧
    exec (.seVxVy x y) s = .next { s with pc := if s.getV x = s.getV y then s.pc + 2 else s.pc } ∧
    exec (.sneVxVy x y) s = .next { s with pc := if s.getV x = s.getV y then s.pc else s.pc + 2 }

/-! ## Loads and the ALU family -/

/-- R170, R171, R177: the plain loads, and the immediate add, which wraps and writes no flag. -/
def Obligations.LoadsAndImmediateAdd : Prop :=
  ∀ (x y : Reg) (nn : Byte) (s : State),
    Decodes (0x6000 + 0x100 * x.val + nn.toNat) (.ldVxNn x nn) ∧
    Decodes (0x7000 + 0x100 * x.val + nn.toNat) (.addVxNn x nn) ∧
    Decodes (0x8000 + 0x100 * x.val + 0x10 * y.val) (.ldVxVy x y) ∧
    (∃ t, exec (.ldVxNn x nn) s = .next t ∧ t.getV x = nn ∧ regsKept [x] s t ∧ t = { s with v := t.v }) ∧
    (∃ t, exec (.addVxNn x nn) s = .next t ∧ (t.getV x).toNat = ((s.getV x).toNat + nn.toNat) % 256 ∧
      regsKept [x] s t ∧ t = { s with v := t.v }) ∧
    (∃ t, exec (.ldVxVy x y) s = .next t ∧ t.getV x = s.getV y ∧ regsKept [x] s t ∧ t = { s with v := t.v })

/-- R178, R179, R180: OR, AND and XOR, bit by bit; VF is not written unless it is the destination. -/
def Obligations.LogicIsBitwise : Prop :=
  ∀ (x y : Reg) (s : State),
    Decodes (0x8001 + 0x100 * x.val + 0x10 * y.val) (.orVxVy x y) ∧
    Decodes (0x8002 + 0x100 * x.val + 0x10 * y.val) (.andVxVy x y) ∧
    Decodes (0x8003 + 0x100 * x.val + 0x10 * y.val) (.xorVxVy x y) ∧
    (∃ t, exec (.orVxVy x y) s = .next t ∧
      (∀ k, (t.getV x).getLsbD k = ((s.getV x).getLsbD k || (s.getV y).getLsbD k)) ∧
      regsKept [x] s t ∧ t = { s with v := t.v }) ∧
    (∃ t, exec (.andVxVy x y) s = .next t ∧
      (∀ k, (t.getV x).getLsbD k = ((s.getV x).getLsbD k && (s.getV y).getLsbD k)) ∧
      regsKept [x] s t ∧ t = { s with v := t.v }) ∧
    (∃ t, exec (.xorVxVy x y) s = .next t ∧
      (∀ k, (t.getV x).getLsbD k = ((s.getV x).getLsbD k ^^ (s.getV y).getLsbD k)) ∧
      regsKept [x] s t ∧ t = { s with v := t.v })

/-- 42_load_alu_random.md section 2: ADD puts the sum modulo 256 into `V[x]` and then the carry into VF, which wins when
`x` is F; both operands are read before either write. The order of the writes is decision D9 of the spec (log 11). -/
def Obligations.AddWritesCarryLast : Prop :=
  ∀ (x y : Reg) (s : State),
    Decodes (0x8004 + 0x100 * x.val + 0x10 * y.val) (.addVxVy x y) ∧
    ∃ t, exec (.addVxVy x y) s = .next t ∧
      (t.getV 0xF).toNat = (if 255 < (s.getV x).toNat + (s.getV y).toNat then 1 else 0) ∧
      (x ≠ 0xF → (t.getV x).toNat = ((s.getV x).toNat + (s.getV y).toNat) % 256) ∧
      regsKept [x, 0xF] s t ∧ t = { s with v := t.v }

/-- 42_load_alu_random.md section 2: SUB puts not-borrow into VF and then the difference modulo 256 into `V[x]`, from the
registers as the flag's write left them; every case of `x` or `y` being F. The order of the writes is decision D9 of the
spec (log 11). -/
def Obligations.SubWritesNotBorrowFirst : Prop :=
  ∀ (x y : Reg) (s : State),
    Decodes (0x8005 + 0x100 * x.val + 0x10 * y.val) (.subVxVy x y) ∧
    ∃ t, exec (.subVxVy x y) s = .next t ∧
      (let vx := (s.getV x).toNat
       let vy := (s.getV y).toNat
       let b := if vy ≤ vx then 1 else 0
       if x ≠ 0xF ∧ y ≠ 0xF then (t.getV x).toNat = (256 + vx - vy) % 256 ∧ (t.getV 0xF).toNat = b
       else if y ≠ 0xF then (t.getV 0xF).toNat = (256 + b - vy) % 256
       else if x ≠ 0xF then (t.getV x).toNat = (256 + vx - b) % 256 ∧ (t.getV 0xF).toNat = b
       else (t.getV 0xF).toNat = 0) ∧
      regsKept [x, 0xF] s t ∧ t = { s with v := t.v }

/-- 42_load_alu_random.md section 2: SUBN is the reverse difference, `V[y] - V[x]`, with the flag first; every case of `x`
or `y` being F. The order of the writes is decision D9 of the spec (log 11). -/
def Obligations.SubnWritesNotBorrowFirst : Prop :=
  ∀ (x y : Reg) (s : State),
    Decodes (0x8007 + 0x100 * x.val + 0x10 * y.val) (.subnVxVy x y) ∧
    ∃ t, exec (.subnVxVy x y) s = .next t ∧
      (let vx := (s.getV x).toNat
       let vy := (s.getV y).toNat
       let b := if vx ≤ vy then 1 else 0
       if x ≠ 0xF ∧ y ≠ 0xF then (t.getV x).toNat = (256 + vy - vx) % 256 ∧ (t.getV 0xF).toNat = b
       else if y ≠ 0xF then (t.getV 0xF).toNat = (256 + vy - b) % 256
       else if x ≠ 0xF then (t.getV x).toNat = (256 + b - vx) % 256 ∧ (t.getV 0xF).toNat = b
       else (t.getV 0xF).toNat = 0) ∧
      regsKept [x, 0xF] s t ∧ t = { s with v := t.v }

/-- 42_load_alu_random.md section 2: SHR for both values of the machine's parameter SHIFT_READS_VY (R8):
the bit shifted out into VF, then the source halved into `V[x]`, read after the flag's write; every case of `x` or the
source being F. The order of the writes is decision D9 of the spec (log 11). -/
def Obligations.ShrReadsSourceAfterFlag : Prop :=
  (∀ (x y : Reg) (s : State),
    Decodes (0x8006 + 0x100 * x.val + 0x10 * y.val) (.shrVxVy x y) ∧
    exec (.shrVxVy x y) s = .next (shiftRight s.params.shiftReadsVy x y s)) ∧
  (∀ (readsVy : Bool) (x y : Reg) (s : State),
    let src := if readsVy then y else x
    let a := (s.getV src).toNat
    let t := shiftRight readsVy x y s
    (if x ≠ 0xF ∧ src ≠ 0xF then (t.getV x).toNat = a / 2 ∧ (t.getV 0xF).toNat = a % 2
     else if src ≠ 0xF then (t.getV 0xF).toNat = a / 2
     else if x ≠ 0xF then (t.getV x).toNat = 0 ∧ (t.getV 0xF).toNat = a % 2
     else (t.getV 0xF).toNat = 0) ∧
    regsKept [x, 0xF] s t ∧ t = { s with v := t.v })

/-- 42_load_alu_random.md section 2: SHL for both values of the machine's parameter SHIFT_READS_VY (R8):
the bit shifted out into VF, then the source doubled modulo 256 into `V[x]`, read after the flag's write; every case of
`x` or the source being F. The order of the writes is decision D9 of the spec (log 11). -/
def Obligations.ShlReadsSourceAfterFlag : Prop :=
  (∀ (x y : Reg) (s : State),
    Decodes (0x800E + 0x100 * x.val + 0x10 * y.val) (.shlVxVy x y) ∧
    exec (.shlVxVy x y) s = .next (shiftLeft s.params.shiftReadsVy x y s)) ∧
  (∀ (readsVy : Bool) (x y : Reg) (s : State),
    let src := if readsVy then y else x
    let a := (s.getV src).toNat
    let t := shiftLeft readsVy x y s
    (if x ≠ 0xF ∧ src ≠ 0xF then (t.getV x).toNat = 2 * a % 256 ∧ (t.getV 0xF).toNat = a / 128
     else if src ≠ 0xF then (t.getV 0xF).toNat = 2 * a % 256
     else if x ≠ 0xF then (t.getV x).toNat = 2 * (a / 128) ∧ (t.getV 0xF).toNat = a / 128
     else (t.getV 0xF).toNat = 2 * (a / 128)) ∧
    regsKept [x, 0xF] s t ∧ t = { s with v := t.v })

/-- R191: RND ANDs one random byte with `nn` into `V[x]`, whatever `nn` is, and consumes the byte. When none is listed
the byte is the free value `Config.freeRandom` (log 2): the statement holds for whatever it is. -/
def Obligations.RndMasksOneRandomByte : Prop :=
  ∀ (x : Reg) (nn : Byte) (s : State),
    Decodes (0xC000 + 0x100 * x.val + nn.toNat) (.rnd x nn) ∧
    ∃ t, exec (.rnd x nn) s = .next t ∧
      (∀ k, (t.getV x).getLsbD k =
        ((s.env.randoms.headD (Config.freeRandom s.env.drawn)).getLsbD k && nn.getLsbD k)) ∧
      regsKept [x] s t ∧
      t = { s with v := t.v, env := { s.env with randoms := s.env.randoms.tail, drawn := s.env.drawn + 1 } }

/-! ## Index register and memory -/

/-- R200: LD I puts the address, zero-extended, into `I`. -/
def Obligations.LdIndexTakesAddress : Prop :=
  ∀ (nnn : Addr) (s : State),
    Decodes (0xA000 + nnn.toNat) (.ldINnn nnn) ∧
    ∃ t, exec (.ldINnn nnn) s = .next t ∧ t.i.toNat = nnn.toNat ∧ t = { s with i := t.i }

/-- 43_index_memory.md section 1 (decision D12): ADD I wraps modulo 65536 and writes no flag; LD F points `I` at
`0x50 + 5*V[x]` with no mask. -/
def Obligations.IndexArithmetic : Prop :=
  ∀ (x : Reg) (s : State),
    Decodes (0xF01E + 0x100 * x.val) (.addIVx x) ∧ Decodes (0xF029 + 0x100 * x.val) (.ldFVx x) ∧
    (∃ t, exec (.addIVx x) s = .next t ∧ t.i.toNat = (s.i.toNat + (s.getV x).toNat) % 65536 ∧
      t = { s with i := t.i }) ∧
    (∃ t, exec (.ldFVx x) s = .next t ∧ t.i.toNat = 0x50 + 5 * (s.getV x).toNat ∧ t = { s with i := t.i })

/-- 43_index_memory.md section 2 (decisions D3, D25): LD B stores hundreds, tens and ones at `I`, `I+1`, `I+2`, and
changes nothing else; it halts with nothing written iff `I` is above 0x0FFD. -/
def Obligations.LdBStoresDecimalDigits : Prop :=
  ∀ (x : Reg) (s : State),
    Decodes (0xF033 + 0x100 * x.val) (.ldBVx x) ∧
    (s.memWf → s.i.toNat ≤ 0x0FFD →
      ∃ t h d o, exec (.ldBVx x) s = .next t ∧
        t.readByte s.i.toNat = some h ∧ h.toNat = (s.getV x).toNat / 100 ∧
        t.readByte (s.i.toNat + 1) = some d ∧ d.toNat = (s.getV x).toNat / 10 % 10 ∧
        t.readByte (s.i.toNat + 2) = some o ∧ o.toNat = (s.getV x).toNat % 10 ∧
        memKept (fun a => s.i.toNat ≤ a ∧ a ≤ s.i.toNat + 2) s t ∧ t.memWf ∧ t = { s with mem := t.mem }) ∧
    (0x0FFD < s.i.toNat → exec (.ldBVx x) s = .next { s with run := .halted, haltCause := .addrFault })

/-- 43_index_memory.md section 2 (decisions D3, D13): LD [I], Vx stores `V[0]` to `V[x]` at `I` up, with `I` unchanged;
it halts with nothing written iff `I + x` is above 0x0FFF. -/
def Obligations.LdMemStoresRegisters : Prop :=
  ∀ (x : Reg) (s : State),
    Decodes (0xF055 + 0x100 * x.val) (.ldMemVx x) ∧
    (s.memWf → s.i.toNat + x.val ≤ 0x0FFF →
      ∃ t, exec (.ldMemVx x) s = .next t ∧
        (∀ k : Reg, k.val ≤ x.val → t.readByte (s.i.toNat + k.val) = some (s.getV k)) ∧
        memKept (fun a => s.i.toNat ≤ a ∧ a ≤ s.i.toNat + x.val) s t ∧ t.memWf ∧ t = { s with mem := t.mem }) ∧
    (0x0FFF < s.i.toNat + x.val → exec (.ldMemVx x) s = .next { s with run := .halted, haltCause := .addrFault })

/-- 43_index_memory.md section 2 (decisions D3, D13): LD Vx, [I] loads `V[0]` to `V[x]` from `I` up, with `I` unchanged;
it halts with no register written iff `I + x` is above 0x0FFF. -/
def Obligations.LdVxMemLoadsRegisters : Prop :=
  ∀ (x : Reg) (s : State),
    Decodes (0xF065 + 0x100 * x.val) (.ldVxMem x) ∧
    (s.i.toNat + x.val ≤ 0x0FFF →
      ∃ t, exec (.ldVxMem x) s = .next t ∧
        (∀ k : Reg, k.val ≤ x.val → s.readByte (s.i.toNat + k.val) = some (t.getV k)) ∧
        (∀ k : Reg, x.val < k.val → t.getV k = s.getV k) ∧ t = { s with v := t.v }) ∧
    (0x0FFF < s.i.toNat + x.val → exec (.ldVxMem x) s = .next { s with run := .halted, haltCause := .addrFault })

/-- 20_memory.md section 6 (the spec's derivation in its rule on fetch coherence): a word stored by LD [I], Vx is the
word a fetch at its address returns, at once. -/
def Obligations.StoredWordIsFetched : Prop :=
  ∀ (x : Reg) (s : State), s.memWf → 1 ≤ x.val → s.i.toNat + x.val ≤ 0x0FFF →
    ∃ t, exec (.ldMemVx x) s = .next t ∧
      State.fetchWord { t with pc := s.i } = some (wordOf (s.getV 0) (s.getV 1))

/-! ## Display -/

/-- R221, R224: CLS makes every cell 0 and changes nothing else, VF included. -/
def Obligations.ClsClearsEveryCell : Prop :=
  Decodes 0x00E0 .cls ∧
  ∀ s : State, ∃ t, exec .cls s = .next t ∧ (∀ x y, t.getPixelAt x y = false) ∧ t = { s with disp := t.disp }

/-- R222, R225, and 44_display.md section 1 (decision D11: pixels past an edge are dropped), 20_memory.md section 4
(decision D3): DRW XORs the sprite's picture, origin at column `V[x] mod 64` and row `V[y] mod 32`, into the display, cell
by cell; VF is 1 iff some cell went from 1 to 0, else 0, and is always written; out of range nothing is drawn. -/
def Obligations.DrwXorsSpriteAndReportsCollision : Prop :=
  ∀ (x y : Reg) (n : Nibble) (s : State),
    let xc := (s.getV x).toNat % 64
    let yc := (s.getV y).toNat % 32
    Decodes (0xD000 + 0x100 * x.val + 0x10 * y.val + n.toNat) (.drw x y n) ∧
    (n.toNat = 0 ∨ s.i.toNat + n.toNat - 1 ≤ 0x0FFF →
      ∃ t, exec (.drw x y n) s = .next t ∧
        (∀ (r : Fin 32) (c : Fin 64),
          t.getPixelAt c r = (s.getPixelAt c r ^^ spriteAt s n.toNat xc yc r.val c.val)) ∧
        ((∃ (r : Fin 32) (c : Fin 64), s.getPixelAt c r = true ∧ t.getPixelAt c r = false) → t.getV 0xF = 1) ∧
        ((∀ (r : Fin 32) (c : Fin 64), s.getPixelAt c r = true → t.getPixelAt c r = true) → t.getV 0xF = 0) ∧
        regsKept [0xF] s t ∧ t = { s with v := t.v, disp := t.disp }) ∧
    (n.toNat ≠ 0 → 0x0FFF < s.i.toNat + n.toNat - 1 →
      exec (.drw x y n) s = .next { s with run := .halted, haltCause := .addrFault })

/-- 44_display.md sections 1 and 2 (its rules on drawSprite and DRW): drawing the same sprite twice restores the display,
and the second draw reports a collision iff some 1 of the sprite falls, inside the screen, on a cell that was 0 before the
first. That pixels past an edge are dropped, so neither wrap nor collide, is decision D11 of the spec (log 11).
(95_test_vectors.md part 4, property 7, words the collision for a sprite drawn where every cell was 0; NOTES.md says
so.) -/
def Obligations.DrawingTwiceRestoresDisplay : Prop :=
  ∀ (x y : Reg) (n : Nibble) (s t u : State), x ≠ 0xF → y ≠ 0xF → s.run ≠ .halted →
    exec (.drw x y n) s = .next t → t.run ≠ .halted → exec (.drw x y n) t = .next u →
    u.disp = s.disp ∧
    (u.getV 0xF = 1 ↔ ∃ (r : Fin 32) (c : Fin 64), s.getPixelAt c r = false ∧
      spriteAt s n.toNat ((s.getV x).toNat % 64) ((s.getV y).toNat % 32) r.val c.val = true)

/-! ## Timer, sound, key -/

/-- R240, R241: the delay timer is read into a register and set from one, whole. -/
def Obligations.DelayTimerTransfers : Prop :=
  ∀ (x : Reg) (s : State),
    Decodes (0xF007 + 0x100 * x.val) (.ldVxDt x) ∧ Decodes (0xF015 + 0x100 * x.val) (.ldDtVx x) ∧
    (∃ t, exec (.ldVxDt x) s = .next t ∧ t.getV x = s.dt ∧ regsKept [x] s t ∧ t = { s with v := t.v }) ∧
    exec (.ldDtVx x) s = .next { s with dt := s.getV x }

/-- 45_timer_key.md section 1 (decision D16): LD ST, Vx sets the sound register, and a tick leaves it alone. -/
def Obligations.SoundRegisterIsSetAndNeverCounts : Prop :=
  (∀ (x : Reg) (s : State),
    Decodes (0xF018 + 0x100 * x.val) (.ldStVx x) ∧ exec (.ldStVx x) s = .next { s with st := s.getV x }) ∧
  (∀ s t : State, step s = .next t → t.st ≠ s.st →
    s.nextTurn = .reset ∨ (CoreRuns s ∧ ∃ x, Fetches s (.ldStVx x)))

/-- R246: LD Vx, K latches `x` and enters WaitingForKey; `V[x]` and `PC` are not changed. With no event the step leaves
the core waiting with `PC` at the next word; with `Quit` it halts with `V[x]` unwritten. -/
def Obligations.KeyWaitBegins : Prop :=
  (∀ (x : Reg) (s : State),
    Decodes (0xF00A + 0x100 * x.val) (.ldVxK x) ∧
    exec (.ldVxK x) s = .next { s with keyreg := x, run := .waitingForKey }) ∧
  (∀ (x : Reg) (s : State) (es : List Event), CoreRuns s → Fetches s (.ldVxK x) → s.env.events = .none :: es →
    step s = .next { s with
      pc := s.pc + 2, keyreg := x, run := .waitingForKey, env := { envAfterCore s with events := es } }) ∧
  (∀ (x : Reg) (s : State) (es : List Event), CoreRuns s → Fetches s (.ldVxK x) → s.env.events = .quit :: es →
    step s = .next { s with
      pc := s.pc + 2, keyreg := x, run := .halted, haltCause := .quit, env := { envAfterCore s with events := es } })

/-- 45_timer_key.md section 2 (decision D15): a key that arrives while waiting is stored, as it comes, in the register
`KEYREG` names, and the core runs again at the word after the LD Vx, K. -/
def Obligations.KeyArrivalCompletesWait : Prop :=
  ∀ (s : State) (k : Byte) (es : List Event), s.nextTurn = .core → s.run = .waitingForKey →
    s.env.events = .keyboard k :: es →
    ∃ t, step s = .next t ∧ t.getV s.keyreg = k ∧ regsKept [s.keyreg] s t ∧
      t = { s with v := t.v, run := .running, env := { envAfterCore s with events := es } }

/-! ## Frames -/

/-- R23 and the opening of 42_load_alu_random.md: a register-only instruction changes its destinations alone; every byte
of memory and every other piece of state is unchanged, but that RND consumes a random byte. -/
def Obligations.RegisterOnlyFrame : Prop :=
  ∀ (i : Instr) (ds : List Reg) (s t : State), registerDests i = some ds → exec i s = .next t →
    regsKept ds s t ∧ memKept noBytes s t ∧ t.params = s.params ∧ t.pc = s.pc ∧ t.i = s.i ∧ stackKept s t ∧
    t.disp = s.disp ∧ timersKept s t ∧ controlKept s t ∧ t.env.events = s.env.events ∧ t.env.turns = s.env.turns ∧
    t.env.started = s.env.started ∧ ((∀ x nn, i ≠ .rnd x nn) → t.env = s.env)

/-- R23, R25 and 41_control_flow.md section 1: a jump or skip changes `PC` alone. RET, the stack not empty, changes `PC`
and `SP` alone, and CALL, below depth 16, `PC`, `SP` and the entry at `SP` alone. RET at depth 0 and CALL at depth 16 are
abandoned: they change nothing but SUNF, or SOVF (decision D6 of the spec, log 11). None changes a register or a byte of
memory. -/
def Obligations.ControlFlowFrame : Prop :=
  (∀ (i : Instr) (s t : State), pcOnly i = true → exec i s = .next t →
    regsKept [] s t ∧ memKept noBytes s t ∧ t.params = s.params ∧ t.i = s.i ∧ stackKept s t ∧ t.disp = s.disp ∧
    timersKept s t ∧ controlKept s t ∧ t.env = s.env) ∧
  (∀ (s t : State), exec .ret s = .next t →
    regsKept [] s t ∧ memKept noBytes s t ∧ t.params = s.params ∧ t.i = s.i ∧ t.stack = s.stack ∧ t.disp = s.disp ∧
    timersKept s t ∧ t.run = s.run ∧ t.haltCause = s.haltCause ∧ t.keyreg = s.keyreg ∧ t.env = s.env ∧
    (0 < s.sp.val → t.diag = s.diag) ∧
    (s.sp.val = 0 → t.pc = s.pc ∧ t.sp = s.sp ∧ t.diag = { s.diag with sunf := t.diag.sunf })) ∧
  (∀ (nnn : Addr) (s t : State), exec (.call nnn) s = .next t →
    regsKept [] s t ∧ memKept noBytes s t ∧ t.params = s.params ∧ t.i = s.i ∧
    (∀ k : Fin 16, k.val ≠ s.sp.val → t.stack[k.val] = s.stack[k.val]) ∧ t.disp = s.disp ∧ timersKept s t ∧
    t.run = s.run ∧ t.haltCause = s.haltCause ∧ t.keyreg = s.keyreg ∧ t.env = s.env ∧
    (s.sp.val < 16 → t.diag = s.diag) ∧
    (s.sp.val = 16 → t.pc = s.pc ∧ t.sp = s.sp ∧ t.diag = { s.diag with sovf := t.diag.sovf }))

/-- The openings of 43_index_memory.md, 44_display.md and 45_timer_key.md, and R23: the index instructions change `I`
alone, LD DT and LD ST their timer alone, LD Vx K `RUN` and `KEYREG` alone, CLS the display alone; and
40_fetch_decode_step.md section 1 (decision D5 of the spec, log 11): HALT0 changes `RUN` and `HALT_CAUSE` alone, `PC`
staying. None changes a register, `PC` or a byte of memory. -/
def Obligations.SingleItemFrame : Prop :=
  ∀ (i : Instr) (s t : State), exec i s = .next t →
    (indexOnly i = true ∨ (∃ x, i = .ldDtVx x) ∨ (∃ x, i = .ldStVx x) ∨ (∃ x, i = .ldVxK x) ∨ i = .halt0 ∨ i = .cls) →
    regsKept [] s t ∧ memKept noBytes s t ∧ t.params = s.params ∧ t.pc = s.pc ∧ stackKept s t ∧ t.diag = s.diag ∧
    t.env = s.env ∧ (indexOnly i = false → t.i = s.i) ∧
    ((∀ x, i ≠ .ldDtVx x) → t.dt = s.dt) ∧ ((∀ x, i ≠ .ldStVx x) → t.st = s.st) ∧
    ((∀ x, i ≠ .ldVxK x) → t.keyreg = s.keyreg ∧ (i ≠ .halt0 → t.run = s.run)) ∧
    (i ≠ .halt0 → t.haltCause = s.haltCause) ∧ (i ≠ .cls → t.disp = s.disp)

/-- R23, R206 and 20_memory.md section 4 (decision D3): a storing instruction changes the bytes it stores to, at the
effective address `dataAddr s 0` its meaning uses, and nothing else; out of range only `RUN` and `HALT_CAUSE`. -/
def Obligations.StoreFrame : Prop :=
  ∀ (i : Instr) (s t : State), isStore i = true → exec i s = .next t →
    (∀ a : Nat, dataAddr s 0 = a → memKept (fun b => a ≤ b ∧ b < a + accessSize i) s t) ∧
    (AccessFaults i s → memKept noBytes s t) ∧
    regsKept [] s t ∧ t.params = s.params ∧ t.pc = s.pc ∧ t.i = s.i ∧ stackKept s t ∧ t.disp = s.disp ∧ timersKept s t ∧
    t.keyreg = s.keyreg ∧ t.diag = s.diag ∧ t.env = s.env ∧ (¬ AccessFaults i s → controlKept s t)

/-- R23, R206 and 20_memory.md section 4 (decision D3): LD Vx, [I] changes `V[0]` to `V[x]` alone, DRW the display and VF
alone; out of range only `RUN` and `HALT_CAUSE`; no byte of memory changes. -/
def Obligations.LoadAndDrawFrame : Prop :=
  ∀ (i : Instr) (s t : State), ((∃ x, i = .ldVxMem x) ∨ (∃ x y n, i = .drw x y n)) → exec i s = .next t →
    memKept noBytes s t ∧ t.params = s.params ∧ t.pc = s.pc ∧ t.i = s.i ∧ stackKept s t ∧ timersKept s t ∧
    t.keyreg = s.keyreg ∧ t.diag = s.diag ∧ t.env = s.env ∧
    (∀ x, i = .ldVxMem x → (∀ r : Reg, x.val < r.val → t.getV r = s.getV r) ∧ t.disp = s.disp) ∧
    (∀ x y n, i = .drw x y n → regsKept [0xF] s t) ∧
    (¬ AccessFaults i s → controlKept s t) ∧ (AccessFaults i s → regsKept [] s t ∧ t.disp = s.disp)

/-! ## The whole machine -/

/-- R23, R29, 95_test_vectors.md part 4, property 8: only LD B, LD [I], `load` and `reset` change memory, and only CLS,
DRW and `reset` change the display. -/
def Obligations.OnlyStoresWriteMemoryOnlyPaintersDisplay : Prop :=
  ∀ s t : State, step s = .next t →
    ((∃ a, t.readByte a ≠ s.readByte a) →
      s.nextTurn = .reset ∨ (∃ bytes, s.nextTurn = .load bytes) ∨
        (CoreRuns s ∧ ∃ i, isStore i = true ∧ Fetches s i)) ∧
    ((∃ x y, t.getPixelAt x y ≠ s.getPixelAt x y) →
      s.nextTurn = .reset ∨ (CoreRuns s ∧ ∃ i, isPainter i = true ∧ Fetches s i))

/-- R22, R27: an instruction that changes VF is one of the six flag writers, or has VF as the `V[x]` it writes; and after
a flag writer VF holds 0x00 or 0x01, unless its `V[x]` is VF or it halted. -/
def Obligations.VfIsFlagOrDestination : Prop :=
  ∀ (i : Instr) (s t : State), exec i s = .next t →
    (t.getV 0xF ≠ s.getV 0xF → isFlagWriter i = true ∨ writtenX i = some 0xF) ∧
    (isFlagWriter i = true → t.run ≠ .halted → writtenX i ≠ some 0xF → t.getV 0xF = 0 ∨ t.getV 0xF = 1)

/-- R40: the transitions of `RUN`. Running to WaitingForKey by LD Vx K alone; WaitingForKey to Running by a key alone; to
Halted by a quit, the zero word, or one of the two faults, with its cause; there is no other but by reset. -/
def Obligations.RunTransitions : Prop :=
  ∀ s t : State, step s = .next t → s.nextTurn ≠ .reset → t.run ≠ s.run →
    s.nextTurn = .core ∧
    ((s.run = .running ∧ t.run = .waitingForKey ∧ ∃ x, Fetches s (.ldVxK x)) ∨
     (s.run = .waitingForKey ∧ t.run = .running ∧ ∃ k, s.nextEvent = .keyboard k) ∨
     (s.run ≠ .halted ∧ t.run = .halted ∧ t.haltCause = .quit ∧ s.nextEvent = .quit) ∨
     (s.run = .running ∧ t.run = .halted ∧ t.haltCause = .zeroWord ∧ Fetches s .halt0) ∨
     (s.run = .running ∧ t.run = .halted ∧ t.haltCause = .fetchFault ∧ 0x0FFE < s.pc.toNat) ∨
     (s.run = .running ∧ t.run = .halted ∧ t.haltCause = .addrFault ∧ ∃ i, Fetches s i ∧ AccessFaults i s))

/-- 20_memory.md section 4, 10_state.md sections 3, 5 and 7, 41_control_flow.md section 2, 70_reset_and_hazards.md section
2, 00_scope.md section 4: every step keeps the invariant: memory in canonical form (so nothing outside 0x000..0xFFF),
HALT_CAUSE NONE exactly when not Halted, `PC` at most 0x10FE and live stack entries at most 0x1000 (both bounds follow
from decision D4 of the spec, log 11), and (the model's own, log 9) the mark of the first step; and it leaves the
parameters as they are. -/
def Obligations.StepKeepsInvariant : Prop :=
  ∀ s t : State, s.Inv → step s = .next t → t.Inv ∧ t.params = s.params

/-- 10_state.md section 9: the reset state, for all values of the parameters, meets the invariant. HALT_CAUSE NONE and the
stack's zeros at reset are decision D14 of the spec (log 7). -/
def Obligations.ResetMeetsInvariant : Prop := State.reset.Inv ∧ ∀ p : Params, (State.resetWith p).Inv

/-- 40_fetch_decode_step.md section 5 (derived there), R264: a step that does not execute LD Vx, DT goes the same way
whatever `DT` holds: only `DT` can come out different. -/
def Obligations.DelayTimerSeenOnlyByLdVxDt : Prop :=
  ∀ (s t : State) (d : Byte), ¬ (CoreRuns s ∧ ∃ x, Fetches s (.ldVxDt x)) → step s = .next t →
    ∃ e, step { s with dt := d } = .next { t with dt := e }

/-- 10_state.md section 5 (decision D16): nothing reads the sound register: a step goes the same way whatever `ST`
holds. -/
def Obligations.SoundRegisterIsNeverRead : Prop :=
  ∀ (s t : State) (b : Byte), step s = .next t → ∃ c, step { s with st := b } = .next { t with st := c }

/-- R28: stack entries at or above `SP` cannot be observed: a step from two states that differ in them alone gives two
states that differ in them alone. -/
def Obligations.DeadStackEntriesAreUnobservable : Prop :=
  ∀ s s' t : State, sameLive s s' → step s = .next t → ∃ t', step s' = .next t' ∧ sameLive t t'
end

