-- ==== Sys2Proof/Laws/Display.lean ====
section
/-! SUPPORT. What drawing does to each cell and to the collision mark (spec 44_display.md R222, R223). -/

namespace Sys2Proof.Machine

theorem Display.cell_clear (r : Fin 32) (c : Fin 64) : Display.cell Display.clear r c = false := by
  simp [Display.cell, Display.clear]

/-- Two displays with the same cells are the same. -/
theorem Display.ext_cell {d e : Display} (h : ∀ r c, Display.cell d r c = Display.cell e r c) : d = e := by
  apply Vector.ext
  intro r hr
  apply Vector.ext
  intro c hc
  exact h ⟨r, hr⟩ ⟨c, hc⟩

/-- One plotted bit toggles its own cell, if there is one, and no other. -/
theorem Blit.cell_plot (t : Blit) (r c : Nat) (r' : Fin 32) (c' : Fin 64) :
    Display.cell (t.plot r c).disp r' c' = (Display.cell t.disp r' c' ^^ (decide (r'.val = r) && decide (c'.val = c))) := by
  have hr := r'.isLt
  have hc := c'.isLt
  unfold Blit.plot
  split
  · next h =>
    by_cases h1 : r'.val = r
    · subst h1
      by_cases h2 : c'.val = c
      · subst h2; simp [Display.cell]
      · have : c ≠ c'.val := fun e => h2 e.symm
        simp [Display.cell, h2, Vector.getElem_set_ne, this]
    · have : r ≠ r'.val := fun e => h1 e.symm
      simp [Display.cell, h1, Vector.getElem_set_ne, this]
  · next h =>
    have : ¬ (r'.val = r ∧ c'.val = c) := fun e => h (by omega)
    simp only [not_and] at this
    by_cases h1 : r'.val = r <;> simp_all

/-- A plotted bit collides iff its cell exists and held 1. -/
theorem Blit.collided_plot (t : Blit) (r c : Nat) :
    (t.plot r c).collided = true ↔ t.collided = true ∨
      ∃ (r' : Fin 32) (c' : Fin 64), r'.val = r ∧ c'.val = c ∧ Display.cell t.disp r' c' = true := by
  unfold Blit.plot
  split
  · next h =>
    simp only [Bool.or_eq_true, Display.cell]
    constructor
    · rintro (h' | h')
      · exact .inl h'
      · exact .inr ⟨⟨r, h.1⟩, ⟨c, h.2⟩, rfl, rfl, h'⟩
    · rintro (h' | ⟨r', c', rfl, rfl, h'⟩)
      · exact .inl h'
      · exact .inr h'
  · next h =>
    constructor
    · exact .inl
    · rintro (h' | ⟨r', c', rfl, rfl, _⟩)
      · exact h'
      · exact absurd ⟨r'.isLt, c'.isLt⟩ h

/-- Whether bits `bit` to `bit + k - 1` of a sprite byte at row `r` put a 1 at column `c'`. -/
def byteBit (b : Byte) (c0 bit k c' : Nat) : Bool :=
  decide (c0 + bit ≤ c') && decide (c' < c0 + bit + k) && b.getLsbD (7 - (c' - c0))

theorem byteBit_succ (b : Byte) (c0 bit k c' : Nat) :
    byteBit b c0 bit (k + 1) c' = ((b.getLsbD (7 - bit) && decide (c' = c0 + bit)) ^^ byteBit b c0 (bit + 1) k c') := by
  unfold byteBit
  by_cases h : c' = c0 + bit
  · subst h
    have h1 : c0 + bit - c0 = bit := by omega
    have h2 : ¬ (c0 + (bit + 1) ≤ c0 + bit) := by omega
    have h3 : c0 + bit < c0 + bit + (k + 1) := by omega
    simp [h1, h3]
  · have e1 : decide (c0 + (bit + 1) ≤ c') = decide (c0 + bit ≤ c') := by
      apply decide_eq_decide.2; omega
    have e2 : decide (c' < c0 + (bit + 1) + k) = decide (c' < c0 + bit + (k + 1)) := by
      apply decide_eq_decide.2; omega
    simp [h, e1, e2]

theorem byteBit_before (b : Byte) (c0 bit k : Nat) : byteBit b c0 (bit + 1) k (c0 + bit) = false := by
  simp [byteBit]

/-- The bits of one sprite byte: each 1 toggles its own cell, once. -/
theorem Blit.cell_drawBits (b : Byte) (r c0 : Nat) (r' : Fin 32) (c' : Fin 64) : ∀ (k bit : Nat) (t : Blit),
    Display.cell (t.drawBits b r c0 bit k).disp r' c' =
      (Display.cell t.disp r' c' ^^ (decide (r'.val = r) && byteBit b c0 bit k c'.val))
  | 0, bit, t => by
    have h : ¬ (c0 + bit ≤ c'.val ∧ c'.val < c0 + bit + 0) := by omega
    have : byteBit b c0 bit 0 c'.val = false := by
      unfold byteBit
      by_cases h1 : c0 + bit ≤ c'.val
      · have h2 : ¬ c'.val < c0 + bit + 0 := fun h2 => h ⟨h1, h2⟩
        simp only [decide_eq_false h2, Bool.and_false, Bool.false_and]
      · simp [h1]
    simp [Blit.drawBits, this]
  | k + 1, bit, t => by
    rw [Blit.drawBits, Blit.cell_drawBits b r c0 r' c' k (bit + 1), byteBit_succ]
    by_cases hb : b.getLsbD (7 - bit) = true
    · simp only [hb, if_true, Blit.cell_plot, Bool.true_and]
      cases decide (r'.val = r) <;> simp
    · simp [hb]

/-- The collision mark of one sprite byte: some 1 fell on a cell that held 1. -/
theorem Blit.collided_drawBits (b : Byte) (r c0 : Nat) : ∀ (k bit : Nat) (t : Blit),
    (t.drawBits b r c0 bit k).collided = true ↔ t.collided = true ∨
      ∃ (r' : Fin 32) (c' : Fin 64), r'.val = r ∧ byteBit b c0 bit k c'.val = true ∧ Display.cell t.disp r' c' = true
  | 0, bit, t => by
    simp only [Blit.drawBits]
    constructor
    · exact .inl
    · rintro (h | ⟨r', c', _, h, _⟩)
      · exact h
      · simp only [byteBit, Bool.and_eq_true, decide_eq_true_eq] at h
        omega
  | k + 1, bit, t => by
    rw [Blit.drawBits, Blit.collided_drawBits b r c0 k (bit + 1)]
    have hstep : ∀ c', byteBit b c0 (bit + 1) k c' = true → c' ≠ c0 + bit := by
      rintro c' h rfl
      simp [byteBit_before] at h
    by_cases hb : b.getLsbD (7 - bit) = true
    · simp only [hb, if_true, Blit.collided_plot, byteBit_succ, Bool.true_and]
      constructor
      · rintro ((h | ⟨r', c', h1, h2, h3⟩) | ⟨r', c', h1, h2, h3⟩)
        · exact .inl h
        · exact .inr ⟨r', c', h1, by simp [h2, byteBit_before], h3⟩
        · refine .inr ⟨r', c', h1, ?_, ?_⟩
          · simp [hstep _ h2, h2]
          · simpa [Blit.cell_plot, hstep _ h2] using h3
      · rintro (h | ⟨r', c', h1, h2, h3⟩)
        · exact .inl (.inl h)
        · by_cases hc : c'.val = c0 + bit
          · exact .inl (.inr ⟨r', c', h1, hc, h3⟩)
          · refine .inr ⟨r', c', h1, ?_, ?_⟩
            · simpa [hc] using h2
            · simpa [Blit.cell_plot, hc] using h3
    · simp [hb, byteBit_succ]

theorem spriteBit_nil (xc yc r c : Nat) : spriteBit [] xc yc r c = false := by
  simp [spriteBit]

theorem spriteBit_cons (b : Byte) (bs : List Byte) (xc yc r c : Nat) :
    spriteBit (b :: bs) xc yc r c = ((decide (r = yc) && byteBit b xc 0 8 c) ^^ spriteBit bs xc (yc + 1) r c) := by
  unfold spriteBit byteBit
  by_cases h : r = yc
  · subst h
    have h2 : ¬ (r + 1 ≤ r) := by omega
    simp
  · by_cases h1 : yc ≤ r
    · have e : r - yc = (r - (yc + 1)) + 1 := by omega
      have e1 : yc + 1 ≤ r := by omega
      simp [h, h1, e1, e]
    · have e1 : ¬ (yc + 1 ≤ r) := by omega
      simp [h, h1, e1]

theorem spriteBit_above (bs : List Byte) (xc yc c : Nat) : spriteBit bs xc (yc + 1) yc c = false := by
  simp [spriteBit]

/-- The rows of a sprite: each cell is XORed with the sprite's picture. -/
theorem Blit.cell_drawRows (xc : Nat) (r' : Fin 32) (c' : Fin 64) : ∀ (rows : List Byte) (yc : Nat) (t : Blit),
    Display.cell (t.drawRows yc xc rows).disp r' c' =
      (Display.cell t.disp r' c' ^^ spriteBit rows xc yc r'.val c'.val)
  | [], yc, t => by simp [Blit.drawRows, spriteBit_nil]
  | b :: bs, yc, t => by
    rw [Blit.drawRows, Blit.cell_drawRows xc r' c' bs (yc + 1), Blit.cell_drawBits, spriteBit_cons, Bool.xor_assoc]

/-- The collision mark of a sprite: some 1 of its picture fell on a cell that held 1. -/
theorem Blit.collided_drawRows (xc : Nat) : ∀ (rows : List Byte) (yc : Nat) (t : Blit),
    (t.drawRows yc xc rows).collided = true ↔ t.collided = true ∨
      ∃ (r' : Fin 32) (c' : Fin 64),
        spriteBit rows xc yc r'.val c'.val = true ∧ Display.cell t.disp r' c' = true
  | [], yc, t => by simp [Blit.drawRows, spriteBit_nil]
  | b :: bs, yc, t => by
    rw [Blit.drawRows, Blit.collided_drawRows xc bs (yc + 1), Blit.collided_drawBits]
    have hne : ∀ r c, spriteBit bs xc (yc + 1) r c = true → r ≠ yc := by
      rintro r c h rfl
      simp [spriteBit_above] at h
    constructor
    · rintro ((h | ⟨r', c', h1, h2, h3⟩) | ⟨r', c', h1, h2⟩)
      · exact .inl h
      · exact .inr ⟨r', c', by simp [spriteBit_cons, h1, h2, spriteBit_above], h3⟩
      · refine .inr ⟨r', c', ?_, ?_⟩
        · simp [spriteBit_cons, h1, hne _ _ h1]
        · simpa [Blit.cell_drawBits, hne _ _ h1] using h2
    · rintro (h | ⟨r', c', h1, h2⟩)
      · exact .inl (.inl h)
      · by_cases hr : r'.val = yc
        · exact .inl (.inr ⟨r', c', hr, by simpa [spriteBit_cons, hr, spriteBit_above] using h1, h2⟩)
        · refine .inr ⟨r', c', ?_, ?_⟩
          · simpa [spriteBit_cons, hr] using h1
          · simpa [Blit.cell_drawBits, hr] using h2

end Sys2Proof.Machine
end

