-- ==== Sys2Proof/Laws/Memory.lean ====
section
/-! SUPPORT. What the memory operations do: they keep the canonical form, a read after a write gives what was written,
and a write leaves every other byte alone (spec 20_memory.md R66, R67, R71). -/

namespace Sys2Proof.Machine

variable {f : Font}

/-! The reset contents (spec 10_state.md R32). -/

theorem resetByte_font (k : Fin 80) : resetByte f (Config.fontBase + k.val) = f[k.val] := by
  have := k.isLt
  rw [resetByte, dif_pos (by simp only [Config.fontSize]; omega)]
  simp

theorem resetByte_outside {a : Nat} (h : a < Config.fontBase ∨ Config.fontBase + Config.fontSize ≤ a) :
    resetByte f a = 0 := by
  rw [resetByte, dif_neg (by omega)]

/-! The canonical form. -/

theorem Memory.wfFrom_mono {lo lo' : Nat} (h : lo' ≤ lo) : ∀ m : Memory, m.wfFrom f lo = true → m.wfFrom f lo' = true
  | [], _ => rfl
  | (a, b) :: m, hm => by
    simp only [Memory.wfFrom, Bool.and_eq_true, decide_eq_true_eq] at hm ⊢
    exact ⟨⟨⟨by omega, hm.1.1.2⟩, hm.1.2⟩, hm.2⟩

theorem Memory.put_wfFrom {a : Nat} (ha : a < Config.memSize) (b : Byte) :
    ∀ {lo : Nat} (m : Memory), lo ≤ a → m.wfFrom f lo = true → (m.put f a b).wfFrom f lo = true
  | lo, [], hlo, _ => by
    by_cases hb : b = resetByte f a <;> simp [Memory.put, Memory.wfFrom, hb, hlo, ha]
  | lo, (k, c) :: m, hlo, hm => by
    have hm' := hm
    simp only [Memory.wfFrom, Bool.and_eq_true, decide_eq_true_eq] at hm'
    obtain ⟨⟨⟨hk, hks⟩, hc⟩, hrest⟩ := hm'
    unfold Memory.put
    by_cases h1 : a < k
    · by_cases hb : b = resetByte f a
      · simpa [h1, hb] using hm
      · simp only [h1, if_true, hb, if_false, Memory.wfFrom, Bool.and_eq_true, decide_eq_true_eq]
        exact ⟨⟨⟨hlo, ha⟩, by simpa using hb⟩, ⟨⟨by omega, hks⟩, hc⟩, hrest⟩
    · by_cases h2 : a = k
      · subst h2
        by_cases hb : b = resetByte f a
        · simpa [hb] using Memory.wfFrom_mono (by omega) m hrest
        · simp only [h1, hb, if_true, if_false, Memory.wfFrom, Bool.and_eq_true, decide_eq_true_eq]
          exact ⟨⟨⟨hlo, ha⟩, by simpa using hb⟩, hrest⟩
      · simp only [h1, h2, if_false, Memory.wfFrom, Bool.and_eq_true, decide_eq_true_eq]
        exact ⟨⟨⟨hk, hks⟩, hc⟩, Memory.put_wfFrom ha b m (by omega) hrest⟩

/-- A write inside `MEM` keeps the canonical form. -/
theorem Memory.put_wf {m : Memory} (hm : m.wf f = true) {a : Nat} (ha : a < Config.memSize) (b : Byte) :
    (m.put f a b).wf f = true :=
  Memory.put_wfFrom ha b m (Nat.zero_le a) hm

theorem Memory.putAll_wf : ∀ (bs : List Byte) {m : Memory} {a : Nat}, m.wf f = true → a + bs.length ≤ Config.memSize →
    (m.putAll f a bs).wf f = true
  | [], _, _, hm, _ => hm
  | b :: bs, m, a, hm, ha => by
    simp only [List.length_cons] at ha
    exact Memory.putAll_wf bs (Memory.put_wf hm (by omega) b) (by omega)

/-- A write that is done keeps the canonical form. -/
theorem Memory.writeBytes_wf {m m' : Memory} (hm : m.wf f = true) {a : Nat} {bs : List Byte}
    (h : m.writeBytes f a bs = some m') : m'.wf f = true := by
  unfold Memory.writeBytes at h
  split at h
  · next hr =>
    cases h
    cases bs with
    | nil => exact hm
    | cons b bs =>
      simp only [Memory.inRange, Bool.or_eq_true, beq_iff_eq, decide_eq_true_eq, List.length_cons] at hr
      exact Memory.putAll_wf _ hm (by simp only [List.length_cons]; omega)
  · cases h

/-- The memory of the reset state is in canonical form. -/
theorem Memory.reset_wf (p : Params) : (State.resetWith p).memWf := rfl

/-! Reads and writes. -/

theorem Memory.lookup_of_lt : ∀ (m : Memory) {lo a : Nat}, a < lo → m.wfFrom f lo = true → m.lookup f a = resetByte f a
  | [], _, _, _, _ => rfl
  | (k, b) :: m, lo, a, h, hm => by
    simp only [Memory.wfFrom, Bool.and_eq_true, decide_eq_true_eq] at hm
    have : a ≠ k := by omega
    simp only [Memory.lookup, this, if_false]
    exact Memory.lookup_of_lt m (by omega) hm.2

theorem Memory.lookup_put_same_from (a : Nat) (b : Byte) :
    ∀ {lo : Nat} (m : Memory), m.wfFrom f lo = true → (m.put f a b).lookup f a = b
  | _, [], _ => by
    by_cases hb : b = resetByte f a <;> simp [Memory.put, Memory.lookup, hb]
  | lo, (k, c) :: m, hm => by
    have hm' := hm
    simp only [Memory.wfFrom, Bool.and_eq_true, decide_eq_true_eq] at hm'
    unfold Memory.put
    by_cases h1 : a < k
    · by_cases hb : b = resetByte f a
      · simp only [h1, hb, if_true]
        exact Memory.lookup_of_lt _ h1 (by
          simp only [Memory.wfFrom, Bool.and_eq_true, decide_eq_true_eq]
          exact ⟨⟨⟨Nat.le_refl k, hm'.1.1.2⟩, hm'.1.2⟩, hm'.2⟩)
      · simp [h1, hb, Memory.lookup]
    · by_cases h2 : a = k
      · subst h2
        by_cases hb : b = resetByte f a
        · simp only [h1, hb, if_true, if_false]
          exact Memory.lookup_of_lt m (Nat.lt_succ_self a) hm'.2
        · simp [hb, Memory.lookup]
      · simp only [h1, h2, if_false, Memory.lookup]
        exact Memory.lookup_put_same_from a b m hm'.2

/-- A byte written reads back. -/
theorem Memory.lookup_put_same {m : Memory} (hm : m.wf f = true) (a : Nat) (b : Byte) : (m.put f a b).lookup f a = b :=
  Memory.lookup_put_same_from a b m hm

/-- A write leaves every other byte alone, in any memory. -/
theorem Memory.lookup_put_ne {a c : Nat} (h : c ≠ a) (b : Byte) : ∀ m : Memory, (m.put f a b).lookup f c = m.lookup f c
  | [] => by
    unfold Memory.put
    split <;> simp [Memory.lookup, h]
  | (k, d) :: m => by
    unfold Memory.put
    split
    · split <;> simp [Memory.lookup, h]
    · split
      · next hk => subst hk; split <;> simp [Memory.lookup, h]
      · simp only [Memory.lookup, Memory.lookup_put_ne h b m]

/-- Bytes written leave every byte outside them alone, in any memory. -/
theorem Memory.lookup_putAll_outside : ∀ (bs : List Byte) (m : Memory) (a : Nat) {c : Nat},
    (c < a ∨ a + bs.length ≤ c) → (m.putAll f a bs).lookup f c = m.lookup f c
  | [], _, _, _, _ => rfl
  | b :: bs, m, a, c, h => by
    simp only [List.length_cons] at h
    rw [Memory.putAll, Memory.lookup_putAll_outside bs (m.put f a b) (a + 1) (by omega),
      Memory.lookup_put_ne (by omega) b m]

/-- Bytes written read back, each at its place. -/
theorem Memory.lookup_putAll_inside : ∀ (bs : List Byte) {m : Memory} {a : Nat} (k : Nat) (hk : k < bs.length),
    m.wf f = true → a + bs.length ≤ Config.memSize → (m.putAll f a bs).lookup f (a + k) = bs[k]
  | b :: bs, m, a, 0, _, hm, ha => by
    rw [Memory.putAll, Memory.lookup_putAll_outside bs (m.put f a b) (a + 1) (by omega)]
    simpa using Memory.lookup_put_same hm a b
  | b :: bs, m, a, k + 1, hk, hm, ha => by
    simp only [List.length_cons] at hk ha
    rw [Memory.putAll, show a + (k + 1) = a + 1 + k by omega]
    simpa using Memory.lookup_putAll_inside bs k (by omega) (Memory.put_wf hm (by omega) b) (by omega)

@[simp] theorem Memory.length_bytesAt (m : Memory) : ∀ (a n : Nat), (m.bytesAt f a n).length = n
  | _, 0 => rfl
  | a, n + 1 => by simp [Memory.bytesAt, Memory.length_bytesAt m (a + 1) n]

theorem Memory.getElem_bytesAt (m : Memory) : ∀ (a n k : Nat) (h : k < (m.bytesAt f a n).length),
    (m.bytesAt f a n)[k] = m.lookup f (a + k)
  | a, n + 1, 0, _ => by simp [Memory.bytesAt]
  | a, n + 1, k + 1, h => by
    simp only [Memory.length_bytesAt] at h
    simp only [Memory.bytesAt, List.getElem_cons_succ]
    rw [Memory.getElem_bytesAt m (a + 1) n k (by simpa using h), show a + 1 + k = a + (k + 1) by omega]

theorem Memory.inRange_iff (a n : Nat) : Memory.inRange a n = true ↔ n = 0 ∨ a + n ≤ Config.memSize := by
  simp [Memory.inRange]

/-- What a read of several bytes answers (R66). -/
theorem Memory.readBytes_eq (m : Memory) (a n : Nat) :
    (m.readBytes f a n = some (m.bytesAt f a n) ∧ (n = 0 ∨ a + n ≤ Config.memSize)) ∨
    (m.readBytes f a n = none ∧ n ≠ 0 ∧ Config.memSize < a + n) := by
  unfold Memory.readBytes
  by_cases h : Memory.inRange a n = true
  · exact .inl ⟨by simp [h], (Memory.inRange_iff a n).1 h⟩
  · have h' := mt (Memory.inRange_iff a n).2 h
    exact .inr ⟨by simp [h], by omega, by omega⟩

/-- What a write of several bytes answers (R66). -/
theorem Memory.writeBytes_eq (m : Memory) (a : Nat) (bs : List Byte) :
    (m.writeBytes f a bs = some (m.putAll f a bs) ∧ (bs.length = 0 ∨ a + bs.length ≤ Config.memSize)) ∨
    (m.writeBytes f a bs = none ∧ bs.length ≠ 0 ∧ Config.memSize < a + bs.length) := by
  unfold Memory.writeBytes
  by_cases h : Memory.inRange a bs.length = true
  · exact .inl ⟨by simp [h], (Memory.inRange_iff a bs.length).1 h⟩
  · have h' := mt (Memory.inRange_iff a bs.length).2 h
    exact .inr ⟨by simp [h], by omega, by omega⟩

/-- Two memories that look up alike read alike. -/
theorem Memory.read_congr {m m' : Memory} {a : Nat} (h : m.lookup f a = m'.lookup f a) : m.read f a = m'.read f a := by
  simp [Memory.read, h]

end Sys2Proof.Machine
end

