-- ==== Sys2Proof/Laws/State.lean ====
section
/-! SUPPORT. One lemma per field per update of State, so that no later proof unfolds a record update; and what a
register read gives after each update. -/

namespace Sys2Proof.Machine

variable (s : State)

/-! setV -/

@[simp] theorem State.setV_v (r : Reg) (b : Byte) : (s.setV r b).v = s.v.set r.val b := rfl
@[simp] theorem State.setV_i (r : Reg) (b : Byte) : (s.setV r b).i = s.i := rfl
@[simp] theorem State.setV_pc (r : Reg) (b : Byte) : (s.setV r b).pc = s.pc := rfl
@[simp] theorem State.setV_mem (r : Reg) (b : Byte) : (s.setV r b).mem = s.mem := rfl
@[simp] theorem State.setV_stack (r : Reg) (b : Byte) : (s.setV r b).stack = s.stack := rfl
@[simp] theorem State.setV_sp (r : Reg) (b : Byte) : (s.setV r b).sp = s.sp := rfl
@[simp] theorem State.setV_disp (r : Reg) (b : Byte) : (s.setV r b).disp = s.disp := rfl
@[simp] theorem State.setV_dt (r : Reg) (b : Byte) : (s.setV r b).dt = s.dt := rfl
@[simp] theorem State.setV_st (r : Reg) (b : Byte) : (s.setV r b).st = s.st := rfl
@[simp] theorem State.setV_run (r : Reg) (b : Byte) : (s.setV r b).run = s.run := rfl
@[simp] theorem State.setV_haltCause (r : Reg) (b : Byte) : (s.setV r b).haltCause = s.haltCause := rfl
@[simp] theorem State.setV_keyreg (r : Reg) (b : Byte) : (s.setV r b).keyreg = s.keyreg := rfl
@[simp] theorem State.setV_diag (r : Reg) (b : Byte) : (s.setV r b).diag = s.diag := rfl
@[simp] theorem State.setV_params (r : Reg) (b : Byte) : (s.setV r b).params = s.params := rfl
@[simp] theorem State.setV_env (r : Reg) (b : Byte) : (s.setV r b).env = s.env := rfl

/-! setI -/

@[simp] theorem State.setI_v (w : Word) : (s.setI w).v = s.v := rfl
@[simp] theorem State.setI_i (w : Word) : (s.setI w).i = w := rfl
@[simp] theorem State.setI_pc (w : Word) : (s.setI w).pc = s.pc := rfl
@[simp] theorem State.setI_mem (w : Word) : (s.setI w).mem = s.mem := rfl
@[simp] theorem State.setI_stack (w : Word) : (s.setI w).stack = s.stack := rfl
@[simp] theorem State.setI_sp (w : Word) : (s.setI w).sp = s.sp := rfl
@[simp] theorem State.setI_disp (w : Word) : (s.setI w).disp = s.disp := rfl
@[simp] theorem State.setI_dt (w : Word) : (s.setI w).dt = s.dt := rfl
@[simp] theorem State.setI_st (w : Word) : (s.setI w).st = s.st := rfl
@[simp] theorem State.setI_run (w : Word) : (s.setI w).run = s.run := rfl
@[simp] theorem State.setI_haltCause (w : Word) : (s.setI w).haltCause = s.haltCause := rfl
@[simp] theorem State.setI_keyreg (w : Word) : (s.setI w).keyreg = s.keyreg := rfl
@[simp] theorem State.setI_diag (w : Word) : (s.setI w).diag = s.diag := rfl
@[simp] theorem State.setI_params (w : Word) : (s.setI w).params = s.params := rfl
@[simp] theorem State.setI_env (w : Word) : (s.setI w).env = s.env := rfl
@[simp] theorem State.getV_setI (w : Word) (q : Reg) : (s.setI w).getV q = s.getV q := rfl

/-! setPc -/

@[simp] theorem State.setPc_v (w : Word) : (s.setPc w).v = s.v := rfl
@[simp] theorem State.setPc_i (w : Word) : (s.setPc w).i = s.i := rfl
@[simp] theorem State.setPc_pc (w : Word) : (s.setPc w).pc = w := rfl
@[simp] theorem State.setPc_mem (w : Word) : (s.setPc w).mem = s.mem := rfl
@[simp] theorem State.setPc_stack (w : Word) : (s.setPc w).stack = s.stack := rfl
@[simp] theorem State.setPc_sp (w : Word) : (s.setPc w).sp = s.sp := rfl
@[simp] theorem State.setPc_disp (w : Word) : (s.setPc w).disp = s.disp := rfl
@[simp] theorem State.setPc_dt (w : Word) : (s.setPc w).dt = s.dt := rfl
@[simp] theorem State.setPc_st (w : Word) : (s.setPc w).st = s.st := rfl
@[simp] theorem State.setPc_run (w : Word) : (s.setPc w).run = s.run := rfl
@[simp] theorem State.setPc_haltCause (w : Word) : (s.setPc w).haltCause = s.haltCause := rfl
@[simp] theorem State.setPc_keyreg (w : Word) : (s.setPc w).keyreg = s.keyreg := rfl
@[simp] theorem State.setPc_diag (w : Word) : (s.setPc w).diag = s.diag := rfl
@[simp] theorem State.setPc_params (w : Word) : (s.setPc w).params = s.params := rfl
@[simp] theorem State.setPc_env (w : Word) : (s.setPc w).env = s.env := rfl
@[simp] theorem State.getV_setPc (w : Word) (q : Reg) : (s.setPc w).getV q = s.getV q := rfl

/-! setMem -/

@[simp] theorem State.setMem_v (m : Memory) : (s.setMem m).v = s.v := rfl
@[simp] theorem State.setMem_i (m : Memory) : (s.setMem m).i = s.i := rfl
@[simp] theorem State.setMem_pc (m : Memory) : (s.setMem m).pc = s.pc := rfl
@[simp] theorem State.setMem_mem (m : Memory) : (s.setMem m).mem = m := rfl
@[simp] theorem State.setMem_stack (m : Memory) : (s.setMem m).stack = s.stack := rfl
@[simp] theorem State.setMem_sp (m : Memory) : (s.setMem m).sp = s.sp := rfl
@[simp] theorem State.setMem_disp (m : Memory) : (s.setMem m).disp = s.disp := rfl
@[simp] theorem State.setMem_dt (m : Memory) : (s.setMem m).dt = s.dt := rfl
@[simp] theorem State.setMem_st (m : Memory) : (s.setMem m).st = s.st := rfl
@[simp] theorem State.setMem_run (m : Memory) : (s.setMem m).run = s.run := rfl
@[simp] theorem State.setMem_haltCause (m : Memory) : (s.setMem m).haltCause = s.haltCause := rfl
@[simp] theorem State.setMem_keyreg (m : Memory) : (s.setMem m).keyreg = s.keyreg := rfl
@[simp] theorem State.setMem_diag (m : Memory) : (s.setMem m).diag = s.diag := rfl
@[simp] theorem State.setMem_params (m : Memory) : (s.setMem m).params = s.params := rfl
@[simp] theorem State.setMem_env (m : Memory) : (s.setMem m).env = s.env := rfl
@[simp] theorem State.getV_setMem (m : Memory) (q : Reg) : (s.setMem m).getV q = s.getV q := rfl

/-! setRegs -/

@[simp] theorem State.setRegs_v (v : Vector Byte 16) : (s.setRegs v).v = v := rfl
@[simp] theorem State.setRegs_i (v : Vector Byte 16) : (s.setRegs v).i = s.i := rfl
@[simp] theorem State.setRegs_pc (v : Vector Byte 16) : (s.setRegs v).pc = s.pc := rfl
@[simp] theorem State.setRegs_mem (v : Vector Byte 16) : (s.setRegs v).mem = s.mem := rfl
@[simp] theorem State.setRegs_stack (v : Vector Byte 16) : (s.setRegs v).stack = s.stack := rfl
@[simp] theorem State.setRegs_sp (v : Vector Byte 16) : (s.setRegs v).sp = s.sp := rfl
@[simp] theorem State.setRegs_disp (v : Vector Byte 16) : (s.setRegs v).disp = s.disp := rfl
@[simp] theorem State.setRegs_dt (v : Vector Byte 16) : (s.setRegs v).dt = s.dt := rfl
@[simp] theorem State.setRegs_st (v : Vector Byte 16) : (s.setRegs v).st = s.st := rfl
@[simp] theorem State.setRegs_run (v : Vector Byte 16) : (s.setRegs v).run = s.run := rfl
@[simp] theorem State.setRegs_haltCause (v : Vector Byte 16) : (s.setRegs v).haltCause = s.haltCause := rfl
@[simp] theorem State.setRegs_keyreg (v : Vector Byte 16) : (s.setRegs v).keyreg = s.keyreg := rfl
@[simp] theorem State.setRegs_diag (v : Vector Byte 16) : (s.setRegs v).diag = s.diag := rfl
@[simp] theorem State.setRegs_params (v : Vector Byte 16) : (s.setRegs v).params = s.params := rfl
@[simp] theorem State.setRegs_env (v : Vector Byte 16) : (s.setRegs v).env = s.env := rfl

/-! setDisp -/

@[simp] theorem State.setDisp_v (d : Display) : (s.setDisp d).v = s.v := rfl
@[simp] theorem State.setDisp_i (d : Display) : (s.setDisp d).i = s.i := rfl
@[simp] theorem State.setDisp_pc (d : Display) : (s.setDisp d).pc = s.pc := rfl
@[simp] theorem State.setDisp_mem (d : Display) : (s.setDisp d).mem = s.mem := rfl
@[simp] theorem State.setDisp_stack (d : Display) : (s.setDisp d).stack = s.stack := rfl
@[simp] theorem State.setDisp_sp (d : Display) : (s.setDisp d).sp = s.sp := rfl
@[simp] theorem State.setDisp_disp (d : Display) : (s.setDisp d).disp = d := rfl
@[simp] theorem State.setDisp_dt (d : Display) : (s.setDisp d).dt = s.dt := rfl
@[simp] theorem State.setDisp_st (d : Display) : (s.setDisp d).st = s.st := rfl
@[simp] theorem State.setDisp_run (d : Display) : (s.setDisp d).run = s.run := rfl
@[simp] theorem State.setDisp_haltCause (d : Display) : (s.setDisp d).haltCause = s.haltCause := rfl
@[simp] theorem State.setDisp_keyreg (d : Display) : (s.setDisp d).keyreg = s.keyreg := rfl
@[simp] theorem State.setDisp_diag (d : Display) : (s.setDisp d).diag = s.diag := rfl
@[simp] theorem State.setDisp_params (d : Display) : (s.setDisp d).params = s.params := rfl
@[simp] theorem State.setDisp_env (d : Display) : (s.setDisp d).env = s.env := rfl
@[simp] theorem State.getV_setDisp (d : Display) (q : Reg) : (s.setDisp d).getV q = s.getV q := rfl

/-! setDt -/

@[simp] theorem State.setDt_v (b : Byte) : (s.setDt b).v = s.v := rfl
@[simp] theorem State.setDt_i (b : Byte) : (s.setDt b).i = s.i := rfl
@[simp] theorem State.setDt_pc (b : Byte) : (s.setDt b).pc = s.pc := rfl
@[simp] theorem State.setDt_mem (b : Byte) : (s.setDt b).mem = s.mem := rfl
@[simp] theorem State.setDt_stack (b : Byte) : (s.setDt b).stack = s.stack := rfl
@[simp] theorem State.setDt_sp (b : Byte) : (s.setDt b).sp = s.sp := rfl
@[simp] theorem State.setDt_disp (b : Byte) : (s.setDt b).disp = s.disp := rfl
@[simp] theorem State.setDt_dt (b : Byte) : (s.setDt b).dt = b := rfl
@[simp] theorem State.setDt_st (b : Byte) : (s.setDt b).st = s.st := rfl
@[simp] theorem State.setDt_run (b : Byte) : (s.setDt b).run = s.run := rfl
@[simp] theorem State.setDt_haltCause (b : Byte) : (s.setDt b).haltCause = s.haltCause := rfl
@[simp] theorem State.setDt_keyreg (b : Byte) : (s.setDt b).keyreg = s.keyreg := rfl
@[simp] theorem State.setDt_diag (b : Byte) : (s.setDt b).diag = s.diag := rfl
@[simp] theorem State.setDt_params (b : Byte) : (s.setDt b).params = s.params := rfl
@[simp] theorem State.setDt_env (b : Byte) : (s.setDt b).env = s.env := rfl
@[simp] theorem State.getV_setDt (b : Byte) (q : Reg) : (s.setDt b).getV q = s.getV q := rfl

/-! setSt -/

@[simp] theorem State.setSt_v (b : Byte) : (s.setSt b).v = s.v := rfl
@[simp] theorem State.setSt_i (b : Byte) : (s.setSt b).i = s.i := rfl
@[simp] theorem State.setSt_pc (b : Byte) : (s.setSt b).pc = s.pc := rfl
@[simp] theorem State.setSt_mem (b : Byte) : (s.setSt b).mem = s.mem := rfl
@[simp] theorem State.setSt_stack (b : Byte) : (s.setSt b).stack = s.stack := rfl
@[simp] theorem State.setSt_sp (b : Byte) : (s.setSt b).sp = s.sp := rfl
@[simp] theorem State.setSt_disp (b : Byte) : (s.setSt b).disp = s.disp := rfl
@[simp] theorem State.setSt_dt (b : Byte) : (s.setSt b).dt = s.dt := rfl
@[simp] theorem State.setSt_st (b : Byte) : (s.setSt b).st = b := rfl
@[simp] theorem State.setSt_run (b : Byte) : (s.setSt b).run = s.run := rfl
@[simp] theorem State.setSt_haltCause (b : Byte) : (s.setSt b).haltCause = s.haltCause := rfl
@[simp] theorem State.setSt_keyreg (b : Byte) : (s.setSt b).keyreg = s.keyreg := rfl
@[simp] theorem State.setSt_diag (b : Byte) : (s.setSt b).diag = s.diag := rfl
@[simp] theorem State.setSt_params (b : Byte) : (s.setSt b).params = s.params := rfl
@[simp] theorem State.setSt_env (b : Byte) : (s.setSt b).env = s.env := rfl
@[simp] theorem State.getV_setSt (b : Byte) (q : Reg) : (s.setSt b).getV q = s.getV q := rfl

/-! setRun -/

@[simp] theorem State.setRun_v (r : Run) : (s.setRun r).v = s.v := rfl
@[simp] theorem State.setRun_i (r : Run) : (s.setRun r).i = s.i := rfl
@[simp] theorem State.setRun_pc (r : Run) : (s.setRun r).pc = s.pc := rfl
@[simp] theorem State.setRun_mem (r : Run) : (s.setRun r).mem = s.mem := rfl
@[simp] theorem State.setRun_stack (r : Run) : (s.setRun r).stack = s.stack := rfl
@[simp] theorem State.setRun_sp (r : Run) : (s.setRun r).sp = s.sp := rfl
@[simp] theorem State.setRun_disp (r : Run) : (s.setRun r).disp = s.disp := rfl
@[simp] theorem State.setRun_dt (r : Run) : (s.setRun r).dt = s.dt := rfl
@[simp] theorem State.setRun_st (r : Run) : (s.setRun r).st = s.st := rfl
@[simp] theorem State.setRun_run (r : Run) : (s.setRun r).run = r := rfl
@[simp] theorem State.setRun_haltCause (r : Run) : (s.setRun r).haltCause = s.haltCause := rfl
@[simp] theorem State.setRun_keyreg (r : Run) : (s.setRun r).keyreg = s.keyreg := rfl
@[simp] theorem State.setRun_diag (r : Run) : (s.setRun r).diag = s.diag := rfl
@[simp] theorem State.setRun_params (r : Run) : (s.setRun r).params = s.params := rfl
@[simp] theorem State.setRun_env (r : Run) : (s.setRun r).env = s.env := rfl
@[simp] theorem State.getV_setRun (r : Run) (q : Reg) : (s.setRun r).getV q = s.getV q := rfl

/-! setKeyreg -/

@[simp] theorem State.setKeyreg_v (r : Reg) : (s.setKeyreg r).v = s.v := rfl
@[simp] theorem State.setKeyreg_i (r : Reg) : (s.setKeyreg r).i = s.i := rfl
@[simp] theorem State.setKeyreg_pc (r : Reg) : (s.setKeyreg r).pc = s.pc := rfl
@[simp] theorem State.setKeyreg_mem (r : Reg) : (s.setKeyreg r).mem = s.mem := rfl
@[simp] theorem State.setKeyreg_stack (r : Reg) : (s.setKeyreg r).stack = s.stack := rfl
@[simp] theorem State.setKeyreg_sp (r : Reg) : (s.setKeyreg r).sp = s.sp := rfl
@[simp] theorem State.setKeyreg_disp (r : Reg) : (s.setKeyreg r).disp = s.disp := rfl
@[simp] theorem State.setKeyreg_dt (r : Reg) : (s.setKeyreg r).dt = s.dt := rfl
@[simp] theorem State.setKeyreg_st (r : Reg) : (s.setKeyreg r).st = s.st := rfl
@[simp] theorem State.setKeyreg_run (r : Reg) : (s.setKeyreg r).run = s.run := rfl
@[simp] theorem State.setKeyreg_haltCause (r : Reg) : (s.setKeyreg r).haltCause = s.haltCause := rfl
@[simp] theorem State.setKeyreg_keyreg (r : Reg) : (s.setKeyreg r).keyreg = r := rfl
@[simp] theorem State.setKeyreg_diag (r : Reg) : (s.setKeyreg r).diag = s.diag := rfl
@[simp] theorem State.setKeyreg_params (r : Reg) : (s.setKeyreg r).params = s.params := rfl
@[simp] theorem State.setKeyreg_env (r : Reg) : (s.setKeyreg r).env = s.env := rfl
@[simp] theorem State.getV_setKeyreg (r : Reg) (q : Reg) : (s.setKeyreg r).getV q = s.getV q := rfl

/-! setDiag -/

@[simp] theorem State.setDiag_v (d : Diag) : (s.setDiag d).v = s.v := rfl
@[simp] theorem State.setDiag_i (d : Diag) : (s.setDiag d).i = s.i := rfl
@[simp] theorem State.setDiag_pc (d : Diag) : (s.setDiag d).pc = s.pc := rfl
@[simp] theorem State.setDiag_mem (d : Diag) : (s.setDiag d).mem = s.mem := rfl
@[simp] theorem State.setDiag_stack (d : Diag) : (s.setDiag d).stack = s.stack := rfl
@[simp] theorem State.setDiag_sp (d : Diag) : (s.setDiag d).sp = s.sp := rfl
@[simp] theorem State.setDiag_disp (d : Diag) : (s.setDiag d).disp = s.disp := rfl
@[simp] theorem State.setDiag_dt (d : Diag) : (s.setDiag d).dt = s.dt := rfl
@[simp] theorem State.setDiag_st (d : Diag) : (s.setDiag d).st = s.st := rfl
@[simp] theorem State.setDiag_run (d : Diag) : (s.setDiag d).run = s.run := rfl
@[simp] theorem State.setDiag_haltCause (d : Diag) : (s.setDiag d).haltCause = s.haltCause := rfl
@[simp] theorem State.setDiag_keyreg (d : Diag) : (s.setDiag d).keyreg = s.keyreg := rfl
@[simp] theorem State.setDiag_diag (d : Diag) : (s.setDiag d).diag = d := rfl
@[simp] theorem State.setDiag_params (d : Diag) : (s.setDiag d).params = s.params := rfl
@[simp] theorem State.setDiag_env (d : Diag) : (s.setDiag d).env = s.env := rfl
@[simp] theorem State.getV_setDiag (d : Diag) (q : Reg) : (s.setDiag d).getV q = s.getV q := rfl

/-! setEnv -/

@[simp] theorem State.setEnv_v (e : Env) : (s.setEnv e).v = s.v := rfl
@[simp] theorem State.setEnv_i (e : Env) : (s.setEnv e).i = s.i := rfl
@[simp] theorem State.setEnv_pc (e : Env) : (s.setEnv e).pc = s.pc := rfl
@[simp] theorem State.setEnv_mem (e : Env) : (s.setEnv e).mem = s.mem := rfl
@[simp] theorem State.setEnv_stack (e : Env) : (s.setEnv e).stack = s.stack := rfl
@[simp] theorem State.setEnv_sp (e : Env) : (s.setEnv e).sp = s.sp := rfl
@[simp] theorem State.setEnv_disp (e : Env) : (s.setEnv e).disp = s.disp := rfl
@[simp] theorem State.setEnv_dt (e : Env) : (s.setEnv e).dt = s.dt := rfl
@[simp] theorem State.setEnv_st (e : Env) : (s.setEnv e).st = s.st := rfl
@[simp] theorem State.setEnv_run (e : Env) : (s.setEnv e).run = s.run := rfl
@[simp] theorem State.setEnv_haltCause (e : Env) : (s.setEnv e).haltCause = s.haltCause := rfl
@[simp] theorem State.setEnv_keyreg (e : Env) : (s.setEnv e).keyreg = s.keyreg := rfl
@[simp] theorem State.setEnv_diag (e : Env) : (s.setEnv e).diag = s.diag := rfl
@[simp] theorem State.setEnv_params (e : Env) : (s.setEnv e).params = s.params := rfl
@[simp] theorem State.setEnv_env (e : Env) : (s.setEnv e).env = e := rfl
@[simp] theorem State.getV_setEnv (e : Env) (q : Reg) : (s.setEnv e).getV q = s.getV q := rfl

/-! raiseHalt -/

@[simp] theorem State.raiseHalt_v (c : HaltCause) : (s.raiseHalt c).v = s.v := rfl
@[simp] theorem State.raiseHalt_i (c : HaltCause) : (s.raiseHalt c).i = s.i := rfl
@[simp] theorem State.raiseHalt_pc (c : HaltCause) : (s.raiseHalt c).pc = s.pc := rfl
@[simp] theorem State.raiseHalt_mem (c : HaltCause) : (s.raiseHalt c).mem = s.mem := rfl
@[simp] theorem State.raiseHalt_stack (c : HaltCause) : (s.raiseHalt c).stack = s.stack := rfl
@[simp] theorem State.raiseHalt_sp (c : HaltCause) : (s.raiseHalt c).sp = s.sp := rfl
@[simp] theorem State.raiseHalt_disp (c : HaltCause) : (s.raiseHalt c).disp = s.disp := rfl
@[simp] theorem State.raiseHalt_dt (c : HaltCause) : (s.raiseHalt c).dt = s.dt := rfl
@[simp] theorem State.raiseHalt_st (c : HaltCause) : (s.raiseHalt c).st = s.st := rfl
@[simp] theorem State.raiseHalt_run (c : HaltCause) : (s.raiseHalt c).run = .halted := rfl
@[simp] theorem State.raiseHalt_haltCause (c : HaltCause) : (s.raiseHalt c).haltCause = c := rfl
@[simp] theorem State.raiseHalt_keyreg (c : HaltCause) : (s.raiseHalt c).keyreg = s.keyreg := rfl
@[simp] theorem State.raiseHalt_diag (c : HaltCause) : (s.raiseHalt c).diag = s.diag := rfl
@[simp] theorem State.raiseHalt_params (c : HaltCause) : (s.raiseHalt c).params = s.params := rfl
@[simp] theorem State.raiseHalt_env (c : HaltCause) : (s.raiseHalt c).env = s.env := rfl
@[simp] theorem State.getV_raiseHalt (c : HaltCause) (q : Reg) : (s.raiseHalt c).getV q = s.getV q := rfl

/-! Registers -/

@[simp] theorem State.getV_setV_same (r : Reg) (b : Byte) : (s.setV r b).getV r = b := by
  simp [State.getV]

theorem State.getV_setV_ne {r q : Reg} (h : q ≠ r) (b : Byte) : (s.setV r b).getV q = s.getV q := by
  have : r.val ≠ q.val := fun e => h (Fin.ext e.symm)
  simp [State.getV, Vector.getElem_set_ne, this]

theorem State.getV_setV (r q : Reg) (b : Byte) : (s.setV r b).getV q = if q = r then b else s.getV q := by
  split
  · next h => subst h; simp
  · next h => exact State.getV_setV_ne s h b

/-- Two states with the same registers read the same, register by register, and conversely. -/
theorem State.v_ext {s t : State} (h : ∀ r, s.getV r = t.getV r) : s.v = t.v := by
  apply Vector.ext
  intro k hk
  simpa [State.getV] using h ⟨k, hk⟩

end Sys2Proof.Machine
end

