-- ==== Sys2Proof/Laws/Ops.lean ====
section
/-! SUPPORT. One lemma for each shared operation that says once everything it can do. -/

namespace Sys2Proof.Machine

variable (s : State)

/-! Program counter and skips. -/

theorem State.skipIf_eq (c : Bool) : s.skipIf c = s.setPc (if c then s.pc + 2 else s.pc) := by
  cases c <;> rfl

theorem State.advancePc_eq : s.advancePc = s.setPc (s.pc + 2) := rfl

/-! Call stack (spec R150, R151). -/

/-- What a push answers. -/
theorem State.push_eq (v : Word) :
    (∃ h : s.sp.val < 16, s.push v =
      some { s with stack := s.stack.set s.sp.val v, sp := ⟨s.sp.val + 1, by omega⟩ }) ∨
    (s.sp.val = 16 ∧ s.push v = none) := by
  have := s.sp.isLt
  by_cases h : s.sp.val < 16
  · exact .inl ⟨h, by simp [State.push, h]⟩
  · exact .inr ⟨by omega, by simp [State.push, h]⟩

/-- What a pop answers. -/
theorem State.pop_eq :
    (∃ h : 0 < s.sp.val, s.pop =
      some (s.stack[s.sp.val - 1]'(by omega), { s with sp := ⟨s.sp.val - 1, by omega⟩ })) ∨
    (s.sp.val = 0 ∧ s.pop = none) := by
  by_cases h : 0 < s.sp.val
  · exact .inl ⟨h, by simp [State.pop, h]⟩
  · exact .inr ⟨by omega, by simp [State.pop, h]⟩

/-! Registers taken and put as bytes. -/

@[simp] theorem length_regsUpTo (x : Reg) : (regsUpTo s x).length = x.val + 1 := by
  have := x.isLt
  simp only [regsUpTo, List.length_take, Vector.length_toList]
  omega

theorem getElem_regsUpTo (x : Reg) (k : Nat) (h : k < (regsUpTo s x).length) :
    (regsUpTo s x)[k] = s.getV ⟨k, by have := x.isLt; simp at h; omega⟩ := by
  simp [regsUpTo, State.getV]

theorem getElem_putRegs : ∀ (bs : List Byte) (v : Vector Byte 16) (k j : Nat) (hj : j < 16),
    (putRegs v k bs)[j] = if h : k ≤ j ∧ j < k + bs.length then bs[j - k]'(by omega) else v[j]
  | [], v, k, j, hj => by
    have : ¬ (k ≤ j ∧ j < k) := by omega
    simp [putRegs, this]
  | b :: bs, v, k, j, hj => by
    rw [putRegs, getElem_putRegs bs _ (k + 1) j hj]
    by_cases h1 : k + 1 ≤ j ∧ j < k + 1 + bs.length
    · have h2 : k ≤ j ∧ j < k + (b :: bs).length := by simp only [List.length_cons]; omega
      have e : j - k = (j - (k + 1)) + 1 := by omega
      simp only [h1, h2, dif_pos, and_self]
      simp [e]
    · by_cases h3 : j = k
      · subst h3
        simp
      · have h2 : ¬ (k ≤ j ∧ j < k + (b :: bs).length) := by simp only [List.length_cons]; omega
        have : k ≠ j := fun e => h3 e.symm
        simp only [h1, h2, dif_neg, not_false_eq_true]
        simp [this]

/-! Memory as a state holds it (spec R66, R71). -/

/-- Bytes put in memory change `MEM` alone. -/
theorem State.putBytes_eq (a : Nat) (bs : List Byte) :
    s.putBytes a bs = s.setMem (s.mem.putAll s.params.font a bs) := rfl

@[simp] theorem State.putBytes_mem (a : Nat) (bs : List Byte) :
    (s.putBytes a bs).mem = s.mem.putAll s.params.font a bs := rfl
@[simp] theorem State.putBytes_params (a : Nat) (bs : List Byte) : (s.putBytes a bs).params = s.params := rfl

/-- A byte inside memory reads as it looks up. -/
theorem State.readByte_eq {a : Nat} (h : a < Config.memSize) : s.readByte a = some (s.mem.lookup s.params.font a) := by
  simp [State.readByte, Memory.read, h]

/-- A read says its address is inside memory. -/
theorem State.readByte_eq_some {a : Nat} {b : Byte} :
    s.readByte a = some b ↔ a < Config.memSize ∧ s.mem.lookup s.params.font a = b := by
  unfold State.readByte Memory.read
  split <;> simp [*]

/-- Bytes put in memory read back, each at its place. -/
theorem State.readByte_putBytes_inside (hm : s.memWf) {a : Nat} {bs : List Byte}
    (ha : a + bs.length ≤ Config.memSize) (k : Nat) (hk : k < bs.length) :
    (s.putBytes a bs).readByte (a + k) = some bs[k] := by
  rw [State.readByte_eq _ (by omega)]
  simp only [State.putBytes_mem, State.putBytes_params, Memory.lookup_putAll_inside bs k hk hm ha]

/-- Bytes put in memory leave every byte outside them alone, in any state. -/
theorem State.readByte_putBytes_outside {a c : Nat} {bs : List Byte} (h : c < a ∨ a + bs.length ≤ c) :
    (s.putBytes a bs).readByte c = s.readByte c :=
  Memory.read_congr (Memory.lookup_putAll_outside bs s.mem a h)

/-- Bytes put inside memory keep the canonical form. -/
theorem State.putBytes_memWf (hm : s.memWf) {a : Nat} {bs : List Byte} (ha : a + bs.length ≤ Config.memSize) :
    (s.putBytes a bs).memWf :=
  Memory.putAll_wf bs hm ha

/-- What a read of several bytes answers. -/
theorem State.readBytes_eq (a n : Nat) :
    (s.readBytes a n = some (s.mem.bytesAt s.params.font a n) ∧ (n = 0 ∨ a + n ≤ Config.memSize)) ∨
    (s.readBytes a n = none ∧ n ≠ 0 ∧ Config.memSize < a + n) :=
  Memory.readBytes_eq s.mem a n

/-- What a write of several bytes answers. -/
theorem State.writeBytes_eq (a : Nat) (bs : List Byte) :
    (s.writeBytes a bs = some (s.putBytes a bs) ∧ (bs.length = 0 ∨ a + bs.length ≤ Config.memSize)) ∨
    (s.writeBytes a bs = none ∧ bs.length ≠ 0 ∧ Config.memSize < a + bs.length) := by
  rcases Memory.writeBytes_eq (f := s.params.font) s.mem a bs with ⟨h, h'⟩ | ⟨h, h'⟩
  · exact .inl ⟨by simp [State.writeBytes, h, State.putBytes], h'⟩
  · exact .inr ⟨by simp [State.writeBytes, h], h'⟩

/-! Stores at `I` (spec R66). -/

/-- What a store at `I` does: all of it, or a halt with nothing written. -/
theorem State.storeAtI_eq (bs : List Byte) :
    (s.storeAtI bs = s.putBytes s.i.toNat bs ∧
      (bs.length = 0 ∨ s.i.toNat + bs.length ≤ Config.memSize)) ∨
    (s.storeAtI bs = s.raiseHalt .addrFault ∧ bs.length ≠ 0 ∧ Config.memSize < s.i.toNat + bs.length) := by
  have e : dataAddr s 0 = s.i.toNat := rfl
  rcases s.writeBytes_eq s.i.toNat bs with ⟨h, h'⟩ | ⟨h, h'⟩
  · exact .inl ⟨by simp [State.storeAtI, e, h], h'⟩
  · exact .inr ⟨by simp [State.storeAtI, e, h], h'⟩

@[simp] theorem length_bcdBytes (b : Byte) : (bcdBytes b).length = 3 := rfl

/-! Flag first, then the result (spec R176). -/

/-- The two writes, register by register. -/
theorem State.getV_flagThen (flag : Byte) (x : Reg) (result : State → Byte) (q : Reg) :
    (s.flagThen flag x result).getV q =
      if q = x then result (s.setV flagReg flag) else if q = flagReg then flag else s.getV q := by
  simp only [State.flagThen, State.getV_setV]

/-- Only registers change. -/
theorem State.flagThen_eq (flag : Byte) (x : Reg) (result : State → Byte) :
    s.flagThen flag x result = s.setRegs (s.flagThen flag x result).v := rfl

/-! Random input (spec R190). -/

/-- A draw changes the outside alone, and counts. -/
theorem State.drawRandom_eq :
    s.drawRandom.2 = s.setEnv { s.env with randoms := s.env.randoms.tail, drawn := s.env.drawn + 1 } ∧
    s.drawRandom.1 = s.env.randoms.headD (Config.freeRandom s.env.drawn) := by
  unfold State.drawRandom
  split
  · next h => simp [h]
  · next h => simp [h]

/-! The picture after a draw (spec R225). -/

/-- The registers after a draw: VF alone, 1 iff a cell went from 1 to 0. -/
theorem State.getV_drawAt (xc yc : Nat) (rows : List Byte) (q : Reg) :
    (s.drawAt xc yc rows).getV q =
      if q = flagReg then flagByte (drawSprite s.disp rows xc yc).collided else s.getV q := by
  unfold State.drawAt flagByte
  cases h : (drawSprite s.disp rows xc yc).collided <;> simp [h, State.getV_setV]
  split <;> rfl

/-- The display after a draw. -/
theorem State.disp_drawAt (xc yc : Nat) (rows : List Byte) :
    (s.drawAt xc yc rows).disp = (drawSprite s.disp rows xc yc).disp := by
  unfold State.drawAt
  cases h : (drawSprite s.disp rows xc yc).collided <;> simp [h]

/-- A draw changes registers and display alone. -/
theorem State.drawAt_eq (xc yc : Nat) (rows : List Byte) :
    s.drawAt xc yc rows = { s with v := (s.drawAt xc yc rows).v, disp := (s.drawAt xc yc rows).disp } := by
  unfold State.drawAt
  cases h : (drawSprite s.disp rows xc yc).collided <;>
    simp only [State.setV_disp, h, if_true, if_false, Bool.false_eq_true] <;> rfl

/-- Each cell after a draw. -/
theorem cell_drawSprite (d : Display) (rows : List Byte) (xc yc : Nat) (r : Fin 32) (c : Fin 64) :
    Display.cell (drawSprite d rows xc yc).disp r c = (Display.cell d r c ^^ spriteBit rows xc yc r.val c.val) :=
  Blit.cell_drawRows xc r c rows yc ⟨d, false⟩

/-- The collision mark of a draw. -/
theorem collided_drawSprite (d : Display) (rows : List Byte) (xc yc : Nat) :
    (drawSprite d rows xc yc).collided = true ↔
      ∃ (r : Fin 32) (c : Fin 64), spriteBit rows xc yc r.val c.val = true ∧ Display.cell d r c = true := by
  have h := Blit.collided_drawRows xc rows yc ⟨d, false⟩
  simp only [Bool.false_eq_true, false_or] at h
  exact h

/-! Fetch (spec R62, R122). -/

/-- What a fetch answers. -/
theorem State.fetchWord_eq :
    (s.fetchWord = some (s.mem.lookup s.params.font s.pc.toNat ++ s.mem.lookup s.params.font (s.pc.toNat + 1)) ∧
      s.pc.toNat ≤ 0x0FFE) ∨
    (s.fetchWord = none ∧ 0x0FFE < s.pc.toNat) := by
  rcases s.readBytes_eq s.pc.toNat 2 with ⟨h, h'⟩ | ⟨h, h'⟩
  · refine .inl ⟨?_, by simp [Config.memSize] at h'; omega⟩
    unfold State.fetchWord
    rw [h]
    rfl
  · refine .inr ⟨?_, by simp [Config.memSize] at h'; omega⟩
    unfold State.fetchWord
    rw [h]

/-! The poll (spec R130). -/

/-- What a poll does, by the event it takes. -/
theorem State.poll_cases :
    (s.nextEvent = .none ∧ s.poll = s.dropEvent) ∨
    (s.nextEvent = .quit ∧ s.poll = s.dropEvent.raiseHalt .quit) ∨
    (∃ k, s.nextEvent = .keyboard k ∧ s.run = .waitingForKey ∧ s.poll = s.dropEvent.deliverKey k) ∨
    (∃ k, s.nextEvent = .keyboard k ∧ s.run ≠ .waitingForKey ∧ s.poll = s.dropEvent) := by
  unfold State.poll
  cases h : s.nextEvent with
  | none => exact .inl ⟨rfl, rfl⟩
  | quit => exact .inr (.inl ⟨rfl, rfl⟩)
  | keyboard k =>
    have e : s.dropEvent.run = s.run := rfl
    by_cases hr : s.run = .waitingForKey
    · exact .inr (.inr (.inl ⟨k, rfl, hr, by simp [State.onEvent, e, hr]⟩))
    · exact .inr (.inr (.inr ⟨k, rfl, hr, by simp [State.onEvent, e, hr]⟩))

/-! Tick and load (spec R248, R306). -/

theorem State.tick_dt : s.tick.dt.toNat = s.dt.toNat - 1 := by
  unfold State.tick
  split
  · next h => simp [h]
  · next h =>
    have h' : s.dt.toNat ≠ 0 := fun e => h (BitVec.eq_of_toNat_eq e)
    have := s.dt.isLt
    have e : (s.dt - 1).toNat = (2 ^ 8 - 1 + s.dt.toNat) % 2 ^ 8 := BitVec.toNat_sub s.dt 1
    simp only [State.setDt_dt, e]
    omega

theorem State.tick_eq : s.tick = s.setDt s.tick.dt := by
  unfold State.tick
  split <;> rfl

/-- A load changes memory and `LOAD_TRUNC` alone. -/
theorem State.loadProgram_eq (bytes : List Byte) :
    s.loadProgram bytes =
      { s with mem := s.mem.putAll s.params.font Config.programBase (bytes.take Config.maxLoad),
               diag := { s.diag with loadTrunc := s.diag.loadTrunc || decide (bytes.length > Config.maxLoad) } } := by
  unfold State.loadProgram
  by_cases h : bytes.length > Config.maxLoad <;> simp [h, State.putBytes, State.setMem, State.setDiag]

end Sys2Proof.Machine
end

