-- ==== Sys2Proof/Laws/Step.lean ====
section
/-! SUPPORT. What a step can do, said once: `exec` always has a next state, and the turns one by one. -/

namespace Sys2Proof.Machine

variable (s : State)

/-- No instruction stops: `exec` answers a next state for every instruction in every state (spec R102, R260). -/
theorem exec_total (i : Instr) : ∃ t, exec i s = .next t := by
  cases i with
  | ret => show ∃ t, execRet s = .next t; unfold execRet; split <;> exact ⟨_, rfl⟩
  | call nnn => show ∃ t, execCall nnn s = .next t; unfold execCall; split <;> exact ⟨_, rfl⟩
  | drw x y n => show ∃ t, execDrw x y n s = .next t; unfold execDrw; split <;> exact ⟨_, rfl⟩
  | ldVxMem x => show ∃ t, execLdVxMem x s = .next t; unfold execLdVxMem; split <;> exact ⟨_, rfl⟩
  | _ => exact ⟨_, rfl⟩

/-- The end of a Running step: a halted state stays, any other is polled. -/
theorem afterExecute_cases :
    (s.run = .halted ∧ afterExecute s = s) ∨ (s.run ≠ .halted ∧ afterExecute s = s.poll) := by
  unfold afterExecute
  by_cases h : s.run = .halted
  · exact .inl ⟨h, by simp [h]⟩
  · exact .inr ⟨h, by simp [h]⟩

/-- Everything a Running step can be (spec R121). -/
theorem stepRunning_cases :
    (0x0FFE < s.pc.toNat ∧ stepRunning s = .next (s.raiseHalt .fetchFault)) ∨
    (s.pc.toNat ≤ 0x0FFE ∧ ∃ w, s.fetchWord = some w ∧
      ((∃ i t, decodeWord w = .ok i ∧ exec i (beforeExecute i s) = .next t ∧
          stepRunning s = .next (afterExecute t)) ∨
       (∃ e, decodeWord w = .error e ∧ stepRunning s = .next (afterExecute s.advancePc.markUnknown)))) := by
  rcases State.fetchWord_eq s with ⟨h, h'⟩ | ⟨h, h'⟩
  · refine .inr ⟨h', _, h, ?_⟩
    generalize hw : (s.mem.lookup s.params.font s.pc.toNat ++ s.mem.lookup s.params.font (s.pc.toNat + 1) : Word) = w at h
    cases hd : decodeWord w with
    | ok i =>
      obtain ⟨t, ht⟩ := exec_total (beforeExecute i s) i
      exact .inl ⟨i, t, rfl, ht, by simp [stepRunning, h, runWord, hd, runInstr, ht]⟩
    | error e => exact .inr ⟨e, rfl, by simp [stepRunning, h, runWord, hd, runUnknown]⟩
  · exact .inl ⟨h', by simp [stepRunning, h]⟩

/-- Everything a core turn can be (spec R120, R126, R127). -/
theorem coreTurn_cases :
    (s.run = .running ∧ coreTurn s = stepRunning s.markStarted) ∨
    (s.run = .waitingForKey ∧ coreTurn s = .next s.markStarted.poll) ∨
    (s.run = .halted ∧ coreTurn s = .next s) := by
  unfold coreTurn
  cases h : s.run
  · exact .inl ⟨rfl, rfl⟩
  · exact .inr (.inl ⟨rfl, rfl⟩)
  · exact .inr (.inr ⟨rfl, rfl⟩)

/-- Everything a step can be: one turn of one agent (spec R70, R72). -/
theorem step_cases :
    (s.nextTurn = .core ∧ step s = coreTurn (s.withTurns s.env.turns.tail)) ∨
    (s.nextTurn = .tick ∧ step s = .next (s.withTurns s.env.turns.tail).tick) ∨
    (s.nextTurn = .reset ∧ step s = .next (s.withTurns s.env.turns.tail).resetTurn) ∨
    (∃ bytes, s.nextTurn = .load bytes ∧ s.env.started = true ∧ step s = .refused .loadAfterFirstStep) ∨
    (∃ bytes, s.nextTurn = .load bytes ∧ s.env.started = false ∧
      step s = .next ((s.withTurns s.env.turns.tail).loadProgram bytes)) := by
  unfold step machineStep
  cases h : s.nextTurn with
  | core => exact .inl ⟨rfl, rfl⟩
  | tick => exact .inr (.inl ⟨rfl, rfl⟩)
  | reset => exact .inr (.inr (.inl ⟨rfl, rfl⟩))
  | load bytes =>
    cases hs : s.env.started with
    | true => exact .inr (.inr (.inr (.inl ⟨bytes, rfl, rfl, by simp [takeTurn, loadTurn, State.withTurns, hs]⟩)))
    | false => exact .inr (.inr (.inr (.inr ⟨bytes, rfl, rfl, by simp [takeTurn, loadTurn, State.withTurns, hs]⟩)))

end Sys2Proof.Machine
end

