-- ==== Sys2Proof/Laws/Exec.lean ====
section
/-! SUPPORT. The instructions whose meaning has more than one outcome, each outcome said once; a fetch byte by byte; what
a poll keeps. -/

namespace Sys2Proof.Machine

variable (s : State)

/-! Instructions with two outcomes. -/

/-- RET: the popped address, or abandoned (spec R152). -/
theorem exec_ret :
    (∃ h : 0 < s.sp.val, exec .ret s =
      .next { s with pc := s.stack[s.sp.val - 1]'(by omega), sp := ⟨s.sp.val - 1, by omega⟩ }) ∨
    (s.sp.val = 0 ∧ exec .ret s = .next s.abandonUnderflow) := by
  rcases s.pop_eq with ⟨h, e⟩ | ⟨h, e⟩
  · exact .inl ⟨h, by simp [exec, execRet, e, State.setPc]⟩
  · exact .inr ⟨h, by simp [exec, execRet, e]⟩

/-- CALL: the return address pushed and the jump, or abandoned (spec R154). -/
theorem exec_call (nnn : Addr) :
    (∃ h : s.sp.val < 16, exec (.call nnn) s =
      .next { s with pc := addrWord nnn, stack := s.stack.set s.sp.val s.pc, sp := ⟨s.sp.val + 1, by omega⟩ }) ∨
    (s.sp.val = 16 ∧ exec (.call nnn) s = .next s.abandonOverflow) := by
  rcases s.push_eq s.pc with ⟨h, e⟩ | ⟨h, e⟩
  · exact .inl ⟨h, by simp [exec, execCall, e, State.setPc]⟩
  · exact .inr ⟨h, by simp [exec, execCall, e]⟩

/-- LD B: the three digits stored, or an address fault (spec R203). -/
theorem exec_ldBVx (x : Reg) :
    (s.i.toNat + 3 ≤ Config.memSize ∧
      exec (.ldBVx x) s = .next (s.putBytes s.i.toNat (bcdBytes (s.getV x)))) ∨
    (Config.memSize < s.i.toNat + 3 ∧ exec (.ldBVx x) s = .next (s.raiseHalt .addrFault)) := by
  rcases s.storeAtI_eq (bcdBytes (s.getV x)) with ⟨e, h⟩ | ⟨e, _, h⟩
  · simp only [length_bcdBytes] at h
    exact .inl ⟨by omega, by simp [exec, execLdBVx, e]⟩
  · simp only [length_bcdBytes] at h
    exact .inr ⟨h, by simp [exec, execLdBVx, e]⟩

/-- LD [I]: the registers stored, or an address fault (spec R204). -/
theorem exec_ldMemVx (x : Reg) :
    (s.i.toNat + (x.val + 1) ≤ Config.memSize ∧
      exec (.ldMemVx x) s = .next (s.putBytes s.i.toNat (regsUpTo s x))) ∨
    (Config.memSize < s.i.toNat + (x.val + 1) ∧ exec (.ldMemVx x) s = .next (s.raiseHalt .addrFault)) := by
  rcases s.storeAtI_eq (regsUpTo s x) with ⟨e, h⟩ | ⟨e, _, h⟩
  · simp only [length_regsUpTo] at h
    exact .inl ⟨by omega, by simp [exec, execLdMemVx, e]⟩
  · simp only [length_regsUpTo] at h
    exact .inr ⟨h, by simp [exec, execLdMemVx, e]⟩

/-- LD Vx, [I]: the registers loaded, or an address fault (spec R205). -/
theorem exec_ldVxMem (x : Reg) :
    (s.i.toNat + (x.val + 1) ≤ Config.memSize ∧
      exec (.ldVxMem x) s = .next (s.setRegs (putRegs s.v 0 (s.mem.bytesAt s.params.font s.i.toNat (x.val + 1))))) ∨
    (Config.memSize < s.i.toNat + (x.val + 1) ∧ exec (.ldVxMem x) s = .next (s.raiseHalt .addrFault)) := by
  have ed : dataAddr s 0 = s.i.toNat := rfl
  rcases s.readBytes_eq s.i.toNat (x.val + 1) with ⟨e, h⟩ | ⟨e, _, h⟩
  · exact .inl ⟨by omega, by simp [exec, execLdVxMem, e, ed]⟩
  · exact .inr ⟨h, by simp [exec, execLdVxMem, e, ed]⟩

/-- The origin of a sprite, as remainders (spec R225). -/
theorem originColumn_eq (b : Byte) : originColumn b = b.toNat % 64 := by
  simp only [originColumn, BitVec.toNat_and]
  exact Nat.and_two_pow_sub_one_eq_mod _ 6

theorem originRow_eq (b : Byte) : originRow b = b.toNat % 32 := by
  simp only [originRow, BitVec.toNat_and]
  exact Nat.and_two_pow_sub_one_eq_mod _ 5

/-- DRW: the sprite drawn, or an address fault (spec R225). -/
theorem exec_drw (x y : Reg) (n : Nibble) :
    ((n.toNat = 0 ∨ s.i.toNat + n.toNat ≤ Config.memSize) ∧
      exec (.drw x y n) s =
        .next (s.drawAt (originColumn (s.getV x)) (originRow (s.getV y)) (s.mem.bytesAt s.params.font s.i.toNat n.toNat))) ∨
    (n.toNat ≠ 0 ∧ Config.memSize < s.i.toNat + n.toNat ∧
      exec (.drw x y n) s = .next (s.raiseHalt .addrFault)) := by
  have ed : dataAddr s 0 = s.i.toNat := rfl
  rcases s.readBytes_eq s.i.toNat n.toNat with ⟨e, h⟩ | ⟨e, h, h'⟩
  · exact .inl ⟨h, by simp [exec, execDrw, e, ed]⟩
  · exact .inr ⟨h, h', by simp [exec, execDrw, e, ed]⟩

/-! Fetch and decode. -/

/-- A fetch delivers the word of the two bytes at `PC`, and nothing else (spec R62). -/
theorem State.fetchWord_iff (w : Word) :
    s.fetchWord = some w ↔
      ∃ hi lo, s.readByte s.pc.toNat = some hi ∧ s.readByte (s.pc.toNat + 1) = some lo ∧ w = wordOf hi lo := by
  rcases s.fetchWord_eq with ⟨e, h⟩ | ⟨e, h⟩
  · rw [e, s.readByte_eq (by simp only [Config.memSize]; omega),
      s.readByte_eq (by simp only [Config.memSize]; omega)]
    simp [wordOf, eq_comm]
  · rw [e]
    constructor
    · intro h'
      cases h'
    · rintro ⟨hi, lo, _, h', _⟩
      rw [State.readByte, Memory.read, if_neg (by simp only [Config.memSize]; omega)] at h'
      cases h'

/-- The decoder refuses a word under one name alone (spec R100). -/
theorem decodeWord_error {w : Word} {e : Undecodable} (h : decodeWord w = .error e) : e = .unknownOpcode w := by
  unfold decodeWord decodeWhole decodeAlu decodeMisc at h
  split at h
  · cases h
  · split at h <;>
      first
        | (cases h; done)
        | (cases h; rfl)
        | (repeat' (split at h <;> first | (cases h; done) | (cases h; rfl) | skip))

/-! The poll (spec R130). -/

/-- A poll changes registers, `RUN` and `HALT_CAUSE`, and takes an event, and nothing else. -/
theorem State.poll_eq :
    s.poll = { s with v := s.poll.v, run := s.poll.run, haltCause := s.poll.haltCause,
                      env := { s.env with events := s.env.events.tail } } := by
  rcases s.poll_cases with ⟨_, e⟩ | ⟨_, e⟩ | ⟨_, _, _, e⟩ | ⟨_, _, _, e⟩ <;> rw [e] <;> rfl

end Sys2Proof.Machine
end

