-- ==== Sys2Proof/Laws/PerInstr.lean ====
section
/-! SUPPORT. Facts about every instruction as syntax, one lemma a constructor. -/

/-! `SelectsRow`: the word of an instruction selects the instruction's own row of the opcode table (spec R96), and the
instruction is well formed. -/

namespace Sys2Proof.Laws.SelectsRow

/-- Well-formedness is the row's affair: the operands do not enter it. -/
theorem wellFormed_of_row {i j : Instr} (h : i.row = j.row) (hj : j.wellFormed = true) : i.wellFormed = true := by
  unfold Instr.wellFormed at *
  rwa [h]

def Statement (i : Instr) : Prop := i.row.selectedBy (encode i) = true ∧ i.wellFormed = true

theorem packNnn_mask (op : BitVec 4) (nnn : Addr) : packNnn op nnn &&& 0xF000 = op ++ (0 : BitVec 12) := by
  apply BitVec.eq_of_getLsbD_eq
  intro k hk
  simp only [packNnn, BitVec.getLsbD_and, BitVec.getLsbD_append]
  interval_cases k <;> simp

theorem packXnn_mask (op : BitVec 4) (x : Reg) (nn : Byte) :
    packXnn op x nn &&& 0xF000 = op ++ (0 : BitVec 12) := by
  apply BitVec.eq_of_getLsbD_eq
  intro k hk
  simp only [packXnn, BitVec.getLsbD_and, BitVec.getLsbD_append]
  interval_cases k <;> simp

theorem packXnn_mask_low (op : BitVec 4) (x : Reg) (nn : Byte) :
    packXnn op x nn &&& 0xF0FF = op ++ (0 : BitVec 4) ++ nn := by
  apply BitVec.eq_of_getLsbD_eq
  intro k hk
  simp only [packXnn, BitVec.getLsbD_and, BitVec.getLsbD_append]
  interval_cases k <;> simp

theorem packXyn_mask (op : BitVec 4) (x y : Reg) (n : Nibble) :
    packXyn op x y n &&& 0xF000 = op ++ (0 : BitVec 12) := by
  apply BitVec.eq_of_getLsbD_eq
  intro k hk
  simp only [packXyn, BitVec.getLsbD_and, BitVec.getLsbD_append]
  interval_cases k <;> simp

theorem packXyn_mask_low (op : BitVec 4) (x y : Reg) (n : Nibble) :
    packXyn op x y n &&& 0xF00F = op ++ (0 : BitVec 8) ++ n := by
  apply BitVec.eq_of_getLsbD_eq
  intro k hk
  simp only [packXyn, BitVec.getLsbD_and, BitVec.getLsbD_append]
  interval_cases k <;> simp

theorem halt0 : Statement .halt0 :=
  ⟨rfl, rfl⟩

theorem cls : Statement .cls :=
  ⟨rfl, rfl⟩

theorem ret : Statement .ret :=
  ⟨rfl, rfl⟩

theorem jp (nnn : Addr) : Statement (.jp nnn) :=
  ⟨by simp only [OpcodeRow.selectedBy, Instr.row, encode, packNnn_mask]; rfl,
    wellFormed_of_row (j := .jp 0) rfl (by decide)⟩

theorem call (nnn : Addr) : Statement (.call nnn) :=
  ⟨by simp only [OpcodeRow.selectedBy, Instr.row, encode, packNnn_mask]; rfl,
    wellFormed_of_row (j := .call 0) rfl (by decide)⟩

theorem seVxNn (x : Reg) (nn : Byte) : Statement (.seVxNn x nn) :=
  ⟨by simp only [OpcodeRow.selectedBy, Instr.row, encode, packXnn_mask]; rfl,
    wellFormed_of_row (j := .seVxNn 0 0) rfl (by decide)⟩

theorem sneVxNn (x : Reg) (nn : Byte) : Statement (.sneVxNn x nn) :=
  ⟨by simp only [OpcodeRow.selectedBy, Instr.row, encode, packXnn_mask]; rfl,
    wellFormed_of_row (j := .sneVxNn 0 0) rfl (by decide)⟩

theorem seVxVy (x y : Reg) : Statement (.seVxVy x y) :=
  ⟨by simp only [OpcodeRow.selectedBy, Instr.row, encode, packXyn_mask_low]; rfl,
    wellFormed_of_row (j := .seVxVy 0 0) rfl (by decide)⟩

theorem ldVxNn (x : Reg) (nn : Byte) : Statement (.ldVxNn x nn) :=
  ⟨by simp only [OpcodeRow.selectedBy, Instr.row, encode, packXnn_mask]; rfl,
    wellFormed_of_row (j := .ldVxNn 0 0) rfl (by decide)⟩

theorem addVxNn (x : Reg) (nn : Byte) : Statement (.addVxNn x nn) :=
  ⟨by simp only [OpcodeRow.selectedBy, Instr.row, encode, packXnn_mask]; rfl,
    wellFormed_of_row (j := .addVxNn 0 0) rfl (by decide)⟩

theorem ldVxVy (x y : Reg) : Statement (.ldVxVy x y) :=
  ⟨by simp only [OpcodeRow.selectedBy, Instr.row, encode, packXyn_mask_low]; rfl,
    wellFormed_of_row (j := .ldVxVy 0 0) rfl (by decide)⟩

theorem orVxVy (x y : Reg) : Statement (.orVxVy x y) :=
  ⟨by simp only [OpcodeRow.selectedBy, Instr.row, encode, packXyn_mask_low]; rfl,
    wellFormed_of_row (j := .orVxVy 0 0) rfl (by decide)⟩

theorem andVxVy (x y : Reg) : Statement (.andVxVy x y) :=
  ⟨by simp only [OpcodeRow.selectedBy, Instr.row, encode, packXyn_mask_low]; rfl,
    wellFormed_of_row (j := .andVxVy 0 0) rfl (by decide)⟩

theorem xorVxVy (x y : Reg) : Statement (.xorVxVy x y) :=
  ⟨by simp only [OpcodeRow.selectedBy, Instr.row, encode, packXyn_mask_low]; rfl,
    wellFormed_of_row (j := .xorVxVy 0 0) rfl (by decide)⟩

theorem addVxVy (x y : Reg) : Statement (.addVxVy x y) :=
  ⟨by simp only [OpcodeRow.selectedBy, Instr.row, encode, packXyn_mask_low]; rfl,
    wellFormed_of_row (j := .addVxVy 0 0) rfl (by decide)⟩

theorem subVxVy (x y : Reg) : Statement (.subVxVy x y) :=
  ⟨by simp only [OpcodeRow.selectedBy, Instr.row, encode, packXyn_mask_low]; rfl,
    wellFormed_of_row (j := .subVxVy 0 0) rfl (by decide)⟩

theorem shrVxVy (x y : Reg) : Statement (.shrVxVy x y) :=
  ⟨by simp only [OpcodeRow.selectedBy, Instr.row, encode, packXyn_mask_low]; rfl,
    wellFormed_of_row (j := .shrVxVy 0 0) rfl (by decide)⟩

theorem subnVxVy (x y : Reg) : Statement (.subnVxVy x y) :=
  ⟨by simp only [OpcodeRow.selectedBy, Instr.row, encode, packXyn_mask_low]; rfl,
    wellFormed_of_row (j := .subnVxVy 0 0) rfl (by decide)⟩

theorem shlVxVy (x y : Reg) : Statement (.shlVxVy x y) :=
  ⟨by simp only [OpcodeRow.selectedBy, Instr.row, encode, packXyn_mask_low]; rfl,
    wellFormed_of_row (j := .shlVxVy 0 0) rfl (by decide)⟩

theorem sneVxVy (x y : Reg) : Statement (.sneVxVy x y) :=
  ⟨by simp only [OpcodeRow.selectedBy, Instr.row, encode, packXyn_mask_low]; rfl,
    wellFormed_of_row (j := .sneVxVy 0 0) rfl (by decide)⟩

theorem ldINnn (nnn : Addr) : Statement (.ldINnn nnn) :=
  ⟨by simp only [OpcodeRow.selectedBy, Instr.row, encode, packNnn_mask]; rfl,
    wellFormed_of_row (j := .ldINnn 0) rfl (by decide)⟩

theorem jpV0 (nnn : Addr) : Statement (.jpV0 nnn) :=
  ⟨by simp only [OpcodeRow.selectedBy, Instr.row, encode, packNnn_mask]; rfl,
    wellFormed_of_row (j := .jpV0 0) rfl (by decide)⟩

theorem rnd (x : Reg) (nn : Byte) : Statement (.rnd x nn) :=
  ⟨by simp only [OpcodeRow.selectedBy, Instr.row, encode, packXnn_mask]; rfl,
    wellFormed_of_row (j := .rnd 0 0) rfl (by decide)⟩

theorem drw (x y : Reg) (n : Nibble) : Statement (.drw x y n) :=
  ⟨by simp only [OpcodeRow.selectedBy, Instr.row, encode, packXyn_mask]; rfl,
    wellFormed_of_row (j := .drw 0 0 0) rfl (by decide)⟩

theorem ldVxDt (x : Reg) : Statement (.ldVxDt x) :=
  ⟨by simp only [OpcodeRow.selectedBy, Instr.row, encode, packXnn_mask_low]; rfl,
    wellFormed_of_row (j := .ldVxDt 0) rfl (by decide)⟩

theorem ldVxK (x : Reg) : Statement (.ldVxK x) :=
  ⟨by simp only [OpcodeRow.selectedBy, Instr.row, encode, packXnn_mask_low]; rfl,
    wellFormed_of_row (j := .ldVxK 0) rfl (by decide)⟩

theorem ldDtVx (x : Reg) : Statement (.ldDtVx x) :=
  ⟨by simp only [OpcodeRow.selectedBy, Instr.row, encode, packXnn_mask_low]; rfl,
    wellFormed_of_row (j := .ldDtVx 0) rfl (by decide)⟩

theorem ldStVx (x : Reg) : Statement (.ldStVx x) :=
  ⟨by simp only [OpcodeRow.selectedBy, Instr.row, encode, packXnn_mask_low]; rfl,
    wellFormed_of_row (j := .ldStVx 0) rfl (by decide)⟩

theorem addIVx (x : Reg) : Statement (.addIVx x) :=
  ⟨by simp only [OpcodeRow.selectedBy, Instr.row, encode, packXnn_mask_low]; rfl,
    wellFormed_of_row (j := .addIVx 0) rfl (by decide)⟩

theorem ldFVx (x : Reg) : Statement (.ldFVx x) :=
  ⟨by simp only [OpcodeRow.selectedBy, Instr.row, encode, packXnn_mask_low]; rfl,
    wellFormed_of_row (j := .ldFVx 0) rfl (by decide)⟩

theorem ldBVx (x : Reg) : Statement (.ldBVx x) :=
  ⟨by simp only [OpcodeRow.selectedBy, Instr.row, encode, packXnn_mask_low]; rfl,
    wellFormed_of_row (j := .ldBVx 0) rfl (by decide)⟩

theorem ldMemVx (x : Reg) : Statement (.ldMemVx x) :=
  ⟨by simp only [OpcodeRow.selectedBy, Instr.row, encode, packXnn_mask_low]; rfl,
    wellFormed_of_row (j := .ldMemVx 0) rfl (by decide)⟩

theorem ldVxMem (x : Reg) : Statement (.ldVxMem x) :=
  ⟨by simp only [OpcodeRow.selectedBy, Instr.row, encode, packXnn_mask_low]; rfl,
    wellFormed_of_row (j := .ldVxMem 0) rfl (by decide)⟩

end Sys2Proof.Laws.SelectsRow
end

