-- ==== Sys2Proof/Tests/Slice0.lean ====
section
/-! SUPPORT. The model's own tests: well-formedness, decoding, one step of each instruction, and for every obligation
with hypotheses a witness that they can be met. The expected values are those of spec/95_test_vectors.md (S and T
numbers) or worked by hand from the rule named. -/

namespace Sys2Proof.Tests

open Sys2Proof Sys2Proof.Machine Sys2Proof.Claims

/-! Helpers. -/

/-- The state after reset with the given registers set. -/
def regs (rs : List (Reg × Byte)) : State := rs.foldl (fun s r => s.setV r.1 r.2) State.reset

/-- Bytes placed in memory by the test. -/
def poke (a : Nat) (bs : List Byte) (s : State) : State := s.putBytes a bs

/-- A lit cell placed in the display by the test. -/
def light (r : Fin 32) (c : Fin 64) (s : State) : State :=
  s.setDisp (s.disp.set r.val (s.disp[r.val].set c.val true))

/-- An event the host offers to the next poll. -/
def offer (e : Event) (s : State) : State := s.setEnv { s.env with events := [e] }

/-- A coming random byte. -/
def dice (b : Byte) (s : State) : State := s.setEnv { s.env with randoms := [b] }

/-- The coming turns. -/
def turns (ts : List Turn) (s : State) : State := s.withTurns ts

/-- The word `w` placed at `PC` and one step taken. -/
def go (w : Nat) (s : State) : Result := step (s.withFetchWord 16 w)

/-- What a next state shows; `none` where there is no next state. -/
def seen {α : Type} (o : Result) (f : State → α) : Option α :=
  match o with
  | .next s => some (f s)
  | .fault _ => none
  | .refused _ => none

/-- The state after reset with the word `w` at `PC`. -/
def ready (w : Nat) : State := State.reset.withFetchWord 16 w

/-! Well-formedness: the table is well formed, and a row or table ill formed in one way is refused by the check for
it. -/

theorem test_table_well_formed : tableWellFormed opcodeTable = true := by decide

theorem test_table_has_33_rows : opcodeTable.length = 33 := by decide

theorem test_row_without_opcode_refused :
    (⟨"BAD", 0x8000, 0x800F⟩ : OpcodeRow).fixesOpcode = false ∧
    (⟨"BAD", 0x8000, 0x800F⟩ : OpcodeRow).wellFormed = false := by decide

theorem test_row_with_bit_outside_mask_refused :
    (⟨"BAD", 0x8010, 0xF00F⟩ : OpcodeRow).patternInMask = false ∧
    (⟨"BAD", 0x8010, 0xF00F⟩ : OpcodeRow).wellFormed = false := by decide

theorem test_overlapping_rows_refused :
    (⟨"A", 0x00E0, 0xFFFF⟩ : OpcodeRow).disjoint ⟨"B", 0x0000, 0xF000⟩ = false ∧
    tableWellFormed [⟨"A", 0x00E0, 0xFFFF⟩, ⟨"B", 0x0000, 0xF000⟩] = false := by decide

theorem test_ill_formed_row_in_table_refused :
    tableWellFormed [⟨"A", 0x00E0, 0xFFFF⟩, ⟨"BAD", 0x8010, 0xF00F⟩] = false := by decide

/-- EX9E of other CHIP-8 descriptions has no row here (spec R101). -/
theorem test_unlisted_row_refused : (⟨"SKP", 0xE09E, 0xF0FF⟩ : OpcodeRow).listedIn opcodeTable = false := by decide

theorem test_instruction_well_formed : (Instr.drw 0xF 0xF 0xF).wellFormed = true := by decide

/-! Decoding: a word of each row, written out from its pattern in spec R96. -/

theorem test_decode_halt0 : decodeTableWord 16 0b0000000000000000 = some .halt0 := by decide
theorem test_decode_cls : decodeTableWord 16 0b0000000011100000 = some .cls := by decide
theorem test_decode_ret : decodeTableWord 16 0b0000000011101110 = some .ret := by decide
theorem test_decode_jp : decodeTableWord 16 0b0001101010111100 = some (.jp 0xABC) := by decide
theorem test_decode_call : decodeTableWord 16 0b0010001101000101 = some (.call 0x345) := by decide
theorem test_decode_seVxNn : decodeTableWord 16 0b0011001100011001 = some (.seVxNn 0x3 0x19) := by decide
theorem test_decode_sneVxNn : decodeTableWord 16 0b0100001000110100 = some (.sneVxNn 0x2 0x34) := by decide
theorem test_decode_seVxVy : decodeTableWord 16 0b0101000100100000 = some (.seVxVy 0x1 0x2) := by decide
theorem test_decode_ldVxNn : decodeTableWord 16 0b0110111110000001 = some (.ldVxNn 0xF 0x81) := by decide
theorem test_decode_addVxNn : decodeTableWord 16 0b0111000100000010 = some (.addVxNn 0x1 0x02) := by decide
theorem test_decode_ldVxVy : decodeTableWord 16 0b1000000100100000 = some (.ldVxVy 0x1 0x2) := by decide
theorem test_decode_orVxVy : decodeTableWord 16 0b1000000100100001 = some (.orVxVy 0x1 0x2) := by decide
theorem test_decode_andVxVy : decodeTableWord 16 0b1000000100100010 = some (.andVxVy 0x1 0x2) := by decide
theorem test_decode_xorVxVy : decodeTableWord 16 0b1000000100100011 = some (.xorVxVy 0x1 0x2) := by decide
theorem test_decode_addVxVy : decodeTableWord 16 0b1000111100010100 = some (.addVxVy 0xF 0x1) := by decide
theorem test_decode_subVxVy : decodeTableWord 16 0b1000000111110101 = some (.subVxVy 0x1 0xF) := by decide
theorem test_decode_shrVxVy : decodeTableWord 16 0b1000000100100110 = some (.shrVxVy 0x1 0x2) := by decide
theorem test_decode_subnVxVy : decodeTableWord 16 0b1000000100100111 = some (.subnVxVy 0x1 0x2) := by decide
theorem test_decode_shlVxVy : decodeTableWord 16 0b1000000100101110 = some (.shlVxVy 0x1 0x2) := by decide
theorem test_decode_sneVxVy : decodeTableWord 16 0b1001101010110000 = some (.sneVxVy 0xA 0xB) := by decide
theorem test_decode_ldINnn : decodeTableWord 16 0b1010000001010000 = some (.ldINnn 0x050) := by decide
theorem test_decode_jpV0 : decodeTableWord 16 0b1011001100000001 = some (.jpV0 0x301) := by decide
theorem test_decode_rnd : decodeTableWord 16 0b1100000100001111 = some (.rnd 0x1 0x0F) := by decide
theorem test_decode_drw : decodeTableWord 16 0b1101000100100101 = some (.drw 0x1 0x2 0x5) := by decide
theorem test_decode_ldVxDt : decodeTableWord 16 0b1111001100000111 = some (.ldVxDt 0x3) := by decide
theorem test_decode_ldVxK : decodeTableWord 16 0b1111001100001010 = some (.ldVxK 0x3) := by decide
theorem test_decode_ldDtVx : decodeTableWord 16 0b1111001000010101 = some (.ldDtVx 0x2) := by decide
theorem test_decode_ldStVx : decodeTableWord 16 0b1111000100011000 = some (.ldStVx 0x1) := by decide
theorem test_decode_addIVx : decodeTableWord 16 0b1111001000011110 = some (.addIVx 0x2) := by decide
theorem test_decode_ldFVx : decodeTableWord 16 0b1111101000101001 = some (.ldFVx 0xA) := by decide
theorem test_decode_ldBVx : decodeTableWord 16 0b1111010000110011 = some (.ldBVx 0x4) := by decide
theorem test_decode_ldMemVx : decodeTableWord 16 0b1111111101010101 = some (.ldMemVx 0xF) := by decide
theorem test_decode_ldVxMem : decodeTableWord 16 0b1111000101100101 = some (.ldVxMem 0x1) := by decide

/-- T10: words just outside the table. -/
theorem test_decode_unknown :
    [0x0123, 0x00E1, 0x8128, 0x812F, 0xF1FF, 0x5121, 0x9AB4, 0xE19E, 0xE1A1].map (decodeTableWord 16) =
      List.replicate 9 none := by decide

/-- R90: one byte is not an instruction; two bytes leave what follows. -/
theorem test_decode_length : decode [0x60] = .error .truncated ∧
    decode [0x60, 0x19, 0x61] = .ok (.ldVxNn 0x0 0x19, [0x61]) := by decide

/-- S1 and its companions. -/
theorem test_bit_fields : lowNibbleOfHighByte 0x12FF = 0x2 ∧ highNibbleOfLowByte 0x12FF = 0xF ∧
    lowNibbleOfLowByte 0x700A = 0xA ∧ highNibble 0x12FF = 0x1 := by decide

/-! The step. -/

/-- T1: reset with nothing loaded halts at once. -/
theorem test_zero_word : seen (step State.reset) (fun t => (t.run, t.haltCause.code, t.pc)) =
    some (.halted, 1, 0x0200) := by decide

/-- T2: the zero word takes no event. -/
theorem test_zero_word_keeps_event : seen (step (offer .quit State.reset)) (fun t => (t.haltCause, t.env.events)) =
    some (.zeroWord, [.quit]) := by decide

/-- T3: the instruction completes and the quit is taken in the same step. -/
theorem test_quit : seen (go 0x6005 (offer .quit State.reset)) (fun t => (t.getV 0, t.pc, t.run, t.haltCause)) =
    some (0x05, 0x0202, .halted, .quit) := by decide

/-- T4: a key while Running is discarded. -/
theorem test_key_discarded : seen (go 0x6005 (offer (.keyboard 9) State.reset))
    (fun t => (t.getV 0, t.run, t.env.events)) = some (0x05, .running, []) := by decide

/-- T5: the last word of memory runs, and the next fetch faults. -/
theorem test_top_of_memory : seen (go 0x6007 (State.reset.setPc 0x0FFE)) (fun t => (t.getV 0, t.pc, t.run)) =
    some (0x07, 0x1000, .running) := by decide

theorem test_fetch_fault : seen (step (State.reset.setPc 0x1000)) (fun t => (t.pc, t.haltCause.code)) =
    some (0x1000, 3) := by decide

/-- T8: an odd `PC` is legal. -/
theorem test_odd_pc : seen (go 0x6122 (State.reset.setPc 0x0201)) (fun t => (t.getV 1, t.pc)) =
    some (0x22, 0x0203) := by decide

/-- T9. -/
theorem test_unknown_word : seen (go 0xE19E State.reset) (fun t => (t.pc, t.diag.bits, t.run)) =
    some (0x0202, 0b0001, .running) := by decide

/-- T11: a Halted core takes no event. -/
theorem test_halted_step : seen (step (offer .quit (State.reset.raiseHalt .zeroWord)))
    (fun t => (t.run, t.haltCause, t.env.events)) = some (.halted, .zeroWord, [.quit]) := by decide

/-- T12, T82, T83: the tick, in Halted and at 0. -/
theorem test_tick : seen (step (turns [.tick] ((State.reset.setDt 3).raiseHalt .quit))) (fun t => t.dt) = some 2 ∧
    seen (step (turns [.tick] State.reset)) (fun t => (t.dt, t.env.turns)) = some (0, []) := by decide

/-- R300: a reset revives a halted machine. -/
theorem test_reset_turn : seen (step (turns [.reset] ((regs [(1, 7)]).raiseHalt .quit)))
    (fun t => (t.run, t.haltCause, t.getV 1, t.pc)) = some (.running, .none, 0, 0x0200) := by decide

/-- R306: a load puts its bytes at 0x200 up. -/
theorem test_load : seen (step (turns [.load [0x60, 0x19]] State.reset))
    (fun t => (t.mem.bytesAt defaultFont 0x1FF 4, t.diag.bits)) = some ([0x00, 0x60, 0x19, 0x00], 0b0000) := by decide

/-- R43, R279: the status port carries the sticky bits in the order UNK, SOVF, SUNF, LOAD_TRUNC from bit 0 up. -/
theorem test_status : (State.setDiag State.reset ⟨false, true, false, true⟩).status =
    ⟨.running, 0, 0b1010, 0, 0x0200⟩ := by decide

/-! Control flow. -/

/-- T18, T17. -/
theorem test_ret : seen (go 0x00EE { State.reset with stack := State.reset.stack.set 0 0x0456, sp := 1 })
    (fun t => (t.pc, t.sp.val)) = some (0x0456, 0) := by decide

theorem test_ret_underflow : seen (go 0x00EE State.reset) (fun t => (t.pc, t.sp.val, t.diag.bits)) =
    some (0x0202, 0, 0b0100) := by decide

/-- T13, T6. -/
theorem test_jp : seen (go 0x1ABC State.reset) (fun t => t.pc) = some 0x0ABC := by decide

/-- T15, T16. -/
theorem test_call : seen (go 0x2300 State.reset) (fun t => (t.stack[0], t.sp.val, t.pc)) =
    some (0x0202, 1, 0x0300) := by decide

theorem test_call_overflow : seen (go 0x2300 { State.reset with sp := 16 }) (fun t => (t.pc, t.sp.val, t.diag.bits)) =
    some (0x0202, 16, 0b0010) := by decide

/-- T7: the largest reachable `PC`. -/
theorem test_jpV0 : seen (go 0xBFFF (regs [(0, 0xFF), (15, 1)])) (fun t => t.pc) = some 0x10FE := by decide

/-- T20a to T20j. -/
theorem test_seVxNn : seen (go 0x3233 (regs [(2, 0x33)])) (fun t => t.pc) = some 0x0204 ∧
    seen (go 0x3234 (regs [(2, 0x33)])) (fun t => t.pc) = some 0x0202 := by decide

theorem test_sneVxNn : seen (go 0x4233 (regs [(2, 0x33)])) (fun t => t.pc) = some 0x0202 ∧
    seen (go 0x4234 (regs [(2, 0x33)])) (fun t => t.pc) = some 0x0204 := by decide

theorem test_seVxVy : seen (go 0x5120 (regs [(1, 7), (2, 7)])) (fun t => t.pc) = some 0x0204 ∧
    seen (go 0x5120 (regs [(1, 7), (2, 8)])) (fun t => t.pc) = some 0x0202 := by decide

theorem test_sneVxVy : seen (go 0x9120 (regs [(1, 7), (2, 7)])) (fun t => t.pc) = some 0x0202 ∧
    seen (go 0x9120 (regs [(1, 7), (2, 8)])) (fun t => t.pc) = some 0x0204 := by decide

/-! Loads, the ALU family, random. Each shows the register named and VF. -/

theorem test_ldVxNn : seen (go 0x6019 State.reset) (fun t => (t.getV 0, t.pc)) = some (0x19, 0x0202) := by decide

/-- T21, T22. -/
theorem test_addVxNn : seen (go 0x7102 (regs [(1, 0xFF), (15, 0x55)])) (fun t => (t.getV 1, t.getV 15)) =
    some (0x01, 0x55) := by decide

theorem test_addVxNn_vf : seen (go 0x7F01 (regs [(15, 0xFF)])) (fun t => t.getV 15) = some 0x00 := by decide

/-- T23 to T27. -/
theorem test_ldVxVy : seen (go 0x8120 (regs [(1, 1), (2, 0x7E)])) (fun t => (t.getV 1, t.getV 2)) =
    some (0x7E, 0x7E) := by decide

theorem test_orVxVy : seen (go 0x8121 (regs [(1, 0x0F), (2, 0xF0), (15, 7)])) (fun t => (t.getV 1, t.getV 15)) =
    some (0xFF, 7) := by decide

theorem test_andVxVy : seen (go 0x8122 (regs [(1, 0x3C), (2, 0x0F), (15, 7)])) (fun t => (t.getV 1, t.getV 15)) =
    some (0x0C, 7) := by decide

theorem test_xorVxVy : seen (go 0x8123 (regs [(1, 0xFF), (2, 0x0F), (15, 7)])) (fun t => (t.getV 1, t.getV 15)) =
    some (0xF0, 7) := by decide

/-- T28, T45a and T45b. -/
theorem test_addVxVy : seen (go 0x8124 (regs [(1, 0xFF), (2, 0xFF)])) (fun t => (t.getV 1, t.getV 15)) =
    some (0xFE, 1) := by decide

theorem test_addVxVy_vf : seen (go 0x8F14 (regs [(15, 0xFF), (1, 0x01)])) (fun t => t.getV 15) = some 0x01 ∧
    seen (go 0x81F4 (regs [(1, 0xF0), (15, 0x20)])) (fun t => (t.getV 1, t.getV 15)) = some (0x10, 0x01) := by decide

/-- T30, T46a to T46c. -/
theorem test_subVxVy : seen (go 0x8125 (regs [(1, 0x0A), (2, 0x0A)])) (fun t => (t.getV 1, t.getV 15)) =
    some (0x00, 1) := by decide

theorem test_subVxVy_vf : seen (go 0x8F15 (regs [(15, 5), (1, 3)])) (fun t => t.getV 15) = some 0xFE ∧
    seen (go 0x81F5 (regs [(1, 5), (15, 9)])) (fun t => (t.getV 1, t.getV 15)) = some (0x05, 0x00) ∧
    seen (go 0x8FF5 (regs [(15, 9)])) (fun t => t.getV 15) = some 0x00 := by decide

/-- T36, T47a to T47c. -/
theorem test_shrVxVy : seen (go 0x8126 (regs [(1, 0xFF), (2, 0x05)])) (fun t => (t.getV 1, t.getV 15, t.getV 2)) =
    some (0x02, 1, 0x05) := by decide

theorem test_shrVxVy_vf : seen (go 0x8F16 (regs [(15, 7), (1, 5)])) (fun t => t.getV 15) = some 0x02 ∧
    seen (go 0x81F6 (regs [(1, 0x44), (15, 3)])) (fun t => (t.getV 1, t.getV 15)) = some (0x00, 0x01) ∧
    seen (go 0x8FF6 (regs [(15, 3)])) (fun t => t.getV 15) = some 0x00 := by decide

/-- T34, T48a to T48c. -/
theorem test_subnVxVy : seen (go 0x8127 (regs [(1, 0x0B), (2, 0x0A)])) (fun t => (t.getV 1, t.getV 15)) =
    some (0xFF, 0) := by decide

theorem test_subnVxVy_vf : seen (go 0x8F17 (regs [(15, 5), (1, 3)])) (fun t => t.getV 15) = some 0x03 ∧
    seen (go 0x81F7 (regs [(1, 5), (15, 9)])) (fun t => (t.getV 1, t.getV 15)) = some (0xFC, 0x01) ∧
    seen (go 0x8FF7 (regs [(15, 9)])) (fun t => t.getV 15) = some 0x00 := by decide

/-- T39, T49a to T49c. -/
theorem test_shlVxVy : seen (go 0x812E (regs [(1, 0xFF), (2, 0x81)])) (fun t => (t.getV 1, t.getV 15, t.getV 2)) =
    some (0x02, 1, 0x81) := by decide

theorem test_shlVxVy_vf : seen (go 0x8F1E (regs [(15, 7), (1, 0x81)])) (fun t => t.getV 15) = some 0x02 ∧
    seen (go 0x81FE (regs [(1, 0x44), (15, 0x80)])) (fun t => (t.getV 1, t.getV 15)) = some (0x02, 0x01) ∧
    seen (go 0x8FFE (regs [(15, 0x80)])) (fun t => t.getV 15) = some 0x02 := by decide

/-- A machine configured with SHIFT_READS_VY false (R8). -/
def readsVx (s : State) : State := { s with params := { s.params with shiftReadsVy := false } }

/-- T36, T37, T39 and T40 on a machine with SHIFT_READS_VY false. -/
theorem test_shift_reads_vx :
    seen (go 0x8126 (readsVx (regs [(1, 0xFF), (2, 0x05)]))) (fun t => (t.getV 1, t.getV 15)) = some (0x7F, 1) ∧
    seen (go 0x8126 (readsVx (regs [(1, 0xFF), (2, 0x04)]))) (fun t => (t.getV 1, t.getV 15)) = some (0x7F, 1) ∧
    seen (go 0x812E (readsVx (regs [(1, 0xFF), (2, 0x81)]))) (fun t => (t.getV 1, t.getV 15)) = some (0xFE, 1) ∧
    seen (go 0x812E (readsVx (regs [(1, 0xFF), (2, 0x40)]))) (fun t => (t.getV 1, t.getV 15)) = some (0xFE, 1) := by
  decide

/-- A FONT that no chip has, its every byte its own number (R8). -/
def countingFont : Font := Vector.ofFn fun k => BitVec.ofNat 8 k.val

/-- R32, R33: memory after reset holds the FONT the machine is configured with, byte `i` at 0x050 + i. -/
theorem test_font_parameter :
    [0x04F, 0x050, 0x051, 0x09F, 0x0A0].map (State.resetWith ⟨true, countingFont⟩).readByte =
      [some 0, some 0, some 1, some 79, some 0] := by decide

/-- R33: the default glyph of 7 begins at 0x050 + 5*7. -/
theorem test_default_font :
    [0x073, 0x074, 0x075, 0x076, 0x077].map State.reset.readByte =
      [some 0xF0, some 0x10, some 0x20, some 0x40, some 0x40] := by decide

/-- R8, R300: a reset keeps the parameters, and FONT is copied in again over what a program stored there. -/
theorem test_reset_keeps_parameters :
    seen (step (turns [.reset] (poke 0x050 [9] (State.resetWith ⟨false, countingFont⟩))))
      (fun t => (t.params.shiftReadsVy, t.readByte 0x050, t.readByte 0x09F)) = some (false, some 0, some 79) := by decide

/-- T42, T43. -/
theorem test_rnd : seen (go 0xC10F (dice 0xA7 State.reset)) (fun t => t.getV 1) = some 0x07 := by decide

theorem test_rnd_draws : seen (go 0xC100 (dice 0xFF (regs [(1, 9)]))) (fun t => (t.getV 1, t.env.randoms)) =
    some (0x00, []) := by decide

/-! Index register and memory. -/

/-- T60. -/
theorem test_ldINnn : seen (go 0xAFFF State.reset) (fun t => t.i) = some 0x0FFF := by decide

/-- T61, T62. -/
theorem test_addIVx : seen (go 0xF01E ((regs [(0, 2)]).setI 0xFFFF)) (fun t => t.i) = some 0x0001 ∧
    seen (go 0xF01E ((regs [(0, 1), (15, 7)]).setI 0x0FFF)) (fun t => (t.i, t.getV 15)) = some (0x1000, 7) := by decide

/-- T63, T64. -/
theorem test_ldFVx : seen (go 0xF029 (regs [(0, 0x0A)])) (fun t => t.i) = some 0x0082 ∧
    seen (go 0xF029 (regs [(0, 0xFF)])) (fun t => t.i) = some 0x054B := by decide

/-- T67, T68. -/
theorem test_ldBVx : seen (go 0xF033 ((regs [(0, 123)]).setI 0x0FFD)) (fun t => (t.mem.bytesAt defaultFont 0x0FFD 3, t.i)) =
    some ([1, 2, 3], 0x0FFD) := by decide

theorem test_ldBVx_fault : seen (go 0xF033 ((regs [(0, 123)]).setI 0x0FFE))
    (fun t => (t.mem.bytesAt defaultFont 0x0FFD 3, t.haltCause.code, t.pc)) = some ([0, 0, 0], 4, 0x0202) := by decide

/-- T69, T74. -/
theorem test_ldMemVx : seen (go 0xF255 ((regs [(0, 0x11), (1, 0x22), (2, 0x33), (3, 0x44)]).setI 0x400))
    (fun t => (t.mem.bytesAt defaultFont 0x400 4, t.i)) = some ([0x11, 0x22, 0x33, 0x00], 0x0400) := by decide

theorem test_ldMemVx_fault : seen (go 0xF055 ((regs [(0, 0x5A)]).setI 0x1000)) (fun t => t.haltCause.code) =
    some 4 := by decide

/-- T70, T72. -/
theorem test_ldVxMem : seen (go 0xF165 (poke 0x400 [0xAA, 0xBB, 0xCC] ((regs [(2, 9)]).setI 0x400)))
    (fun t => (t.getV 0, t.getV 1, t.getV 2, t.i)) = some (0xAA, 0xBB, 9, 0x0400) := by decide

theorem test_ldVxMem_fault : seen (go 0xFF65 (State.reset.setI 0x0FF1)) (fun t => (t.v, t.haltCause.code)) =
    some (State.reset.v, 4) := by decide

/-- T75: an instruction that overwrites itself is not affected by it. -/
theorem test_self_overwrite : seen (go 0xF155 ((regs [(0, 0xAB), (1, 0xCD)]).setI 0x0200))
    (fun t => (t.mem.bytesAt defaultFont 0x200 2, t.pc)) = some ([0xAB, 0xCD], 0x0202) := by decide

/-! Display. -/

/-- T59c. -/
theorem test_cls : seen (go 0x00E0 (light 31 63 (light 0 0 (regs [(15, 1)]))))
    (fun t => (t.getPixelAt 0 0, t.getPixelAt 63 31, t.getV 15)) = some (false, false, 1) := by decide

/-- T52: one erased cell is enough for a collision. -/
theorem test_drw : seen (go 0xD011 (light 0 1 (poke 0x300 [0xC0] (State.reset.setI 0x300))))
    (fun t => (t.getPixelAt 0 0, t.getPixelAt 1 0, t.getV 15)) = some (true, false, 1) := by decide

/-- T57: rows past the bottom are dropped, not wrapped. -/
theorem test_drw_edge : seen (go 0xD122 (light 0 0 (poke 0x300 [0xFF, 0xFF] ((regs [(2, 31)]).setI 0x300))))
    (fun t => (t.getPixelAt 7 31, t.getPixelAt 0 0, t.getV 15)) = some (true, true, 0) := by decide

/-- T53, T54: the range of the sprite. -/
theorem test_drw_range : seen (go 0xD010 ((regs [(15, 1)]).setI 0xFFFF)) (fun t => (t.getV 15, t.run)) =
      some (0, .running) ∧
    seen (go 0xD013 ((regs [(15, 9)]).setI 0x0FFE)) (fun t => (t.getV 15, t.haltCause.code)) = some (9, 4) := by decide

/-- P1, step 4: the glyph of 0 drawn from the font. -/
theorem test_drw_font : seen (go 0xD015 ((regs [(0, 0x19)]).setI 0x050))
    (fun t => (t.getPixelAt 25 0, t.getPixelAt 26 1, t.getPixelAt 28 4, t.getV 15)) =
      some (true, false, true, 0) := by decide

/-! Timer, sound, key. -/

/-- T85, T80, T81. -/
theorem test_ldVxDt : seen (go 0xF207 (State.reset.setDt 0x11)) (fun t => (t.getV 2, t.dt)) = some (0x11, 0x11) := by
  decide

theorem test_ldDtVx : seen (go 0xF015 (regs [(0, 0x3C)])) (fun t => (t.dt, t.st)) = some (0x3C, 0) := by decide

theorem test_ldStVx : seen (go 0xF018 (regs [(0, 0x3C)])) (fun t => (t.st, t.dt)) = some (0x3C, 0) := by decide

/-- T86, T87. -/
theorem test_ldVxK : seen (go 0xF30A (offer .none State.reset)) (fun t => (t.pc, t.run, t.keyreg)) =
    some (0x0202, .waitingForKey, 3) := by decide

theorem test_ldVxK_at_once : seen (go 0xF30A (offer (.keyboard 0x41) State.reset)) (fun t => (t.getV 3, t.run, t.pc)) =
    some (0x41, .running, 0x0202) := by decide

/-- S10: a key that comes while waiting; no word is fetched. -/
theorem test_key_arrives : seen (step (offer (.keyboard 55) { State.reset with run := .waitingForKey, keyreg := 3 }))
    (fun t => (t.getV 3, t.run, t.pc)) = some (55, .running, 0x0200) := by decide

/-! Placing a word (log 10). -/

/-- From reset only memory changes, and the core is the machine the host sees. -/
theorem test_withFetchWord : State.reset.withFetchWord 16 0x6019 =
    { State.reset with mem := [(0x200, 0x60), (0x201, 0x19)] } := by decide

theorem test_withFetchWord_halted : seen (go 0x6019 ((State.reset.setPc 0x1000).raiseHalt .quit))
    (fun t => (t.getV 0, t.pc, t.run)) = some (0x19, 0x0202, .running) := by decide

theorem test_core : core.reset = State.reset ∧ core.step = step := ⟨rfl, rfl⟩

/-! Witnesses: the hypotheses of each obligation that has any, met together. -/

theorem witness_EncodeInvertsDecode : decodeWord 0x8F14 = .ok (.addVxVy 0xF 0x1) := by decide

theorem witness_DecoderFollowsOpcodeTable :
    decodeWord 0xF065 = .ok (.ldVxMem 0) ∧ decodeWord 0xF066 = .error (.unknownOpcode 0xF066) := by decide

theorem witness_UnknownWordsAreThoseListed :
    ([0x0001, 0x0FFF, 0x500F, 0x9001, 0x8008, 0x800D, 0x800F, 0xE000, 0xEFFF, 0xF000, 0xFFFF].all fun k =>
      decodeWord (BitVec.ofNat 16 k) == .error (.unknownOpcode (BitVec.ofNat 16 k))) = true := by decide

theorem witness_StepRunsDecodedInstruction :
    (CoreRuns (ready 0x6019) ∧ Fetches (ready 0x6019) (.ldVxNn 0 0x19)) ∧
    (CoreRuns State.reset ∧ Fetches State.reset .halt0) :=
  ⟨⟨by decide, 0x60, 0x19, by decide⟩, by decide, 0, 0, by decide⟩

theorem witness_FetchIsBigEndian :
    (ready 0x6019).fetchWord = some 0x6019 ∧ (State.reset.setPc 0x0FFE).fetchWord = some 0 ∧
    (State.reset.setPc 0x0FFF).fetchWord = none := by decide

theorem witness_FetchOutOfRangeHalts :
    CoreRuns (State.reset.setPc 0x0FFF) ∧ 0x0FFE < (State.reset.setPc 0x0FFF).pc.toNat := by decide

theorem witness_ZeroWordHalts :
    CoreRuns State.reset ∧ State.reset.readByte State.reset.pc.toNat = some 0 ∧
    State.reset.readByte (State.reset.pc.toNat + 1) = some 0 := by decide

theorem witness_UnknownWordIsNoOp : CoreRuns (ready 0xE19E) ∧ FetchesUnknown (ready 0xE19E) :=
  ⟨by decide, 0xE1, 0x9E, by decide⟩

/-- A core in WaitingForKey for V3. -/
def waiting : State := { State.reset with run := .waitingForKey, keyreg := 3 }

theorem witness_WaitingStepOnlyPolls :
    (waiting.nextTurn = .core ∧ waiting.run = .waitingForKey ∧ waiting.nextEvent = .none) ∧
    ((turns [.tick] waiting).nextTurn = .tick ∧ (turns [.tick] waiting).run = .waitingForKey) := by decide

/-- A core halted by the zero word. -/
def halted : State := State.reset.raiseHalt .zeroWord

theorem witness_HaltedIsTerminal :
    (halted.nextTurn = .core ∧ halted.run = .halted) ∧
    (∃ t, (turns [.tick] halted).run = .halted ∧ (turns [.tick] halted).nextTurn ≠ .reset ∧
      step (turns [.tick] halted) = .next t) :=
  ⟨by decide, _, by decide, by decide, rfl⟩

theorem witness_PollTakesOneEvent :
    (offer .quit State.reset).env.events = .quit :: [] ∧
    ((offer (.keyboard 9) waiting).env.events = .keyboard 9 :: [] ∧
      (offer (.keyboard 9) waiting).run = .waitingForKey) ∧
    ((offer (.keyboard 9) State.reset).env.events = .keyboard 9 :: [] ∧
      (offer (.keyboard 9) State.reset).run = .running) ∧
    (offer .none State.reset).env.events = .none :: [] ∧
    (CoreRuns (offer (.keyboard 9) (ready 0xF30A)) ∧ Fetches (offer (.keyboard 9) (ready 0xF30A)) (.ldVxK 3) ∧
      (offer (.keyboard 9) (ready 0xF30A)).env.events = .keyboard 9 :: []) :=
  ⟨rfl, ⟨rfl, rfl⟩, ⟨rfl, rfl⟩, rfl, by decide, ⟨0xF3, 0x0A, by decide⟩, rfl⟩

/-- Each of the four instructions at the first address that is out of range, and not at the last that is inside. -/
theorem witness_AddressFaultIsPrecise :
    (AccessFaults (.drw 0 0 1) (State.reset.setI 0x1000) ∧ ¬ AccessFaults (.drw 0 0 1) (State.reset.setI 0x0FFF)) ∧
    (AccessFaults (.ldBVx 0) (State.reset.setI 0x0FFE) ∧ ¬ AccessFaults (.ldBVx 0) (State.reset.setI 0x0FFD)) ∧
    (AccessFaults (.ldMemVx 15) (State.reset.setI 0x0FF1) ∧
      ¬ AccessFaults (.ldMemVx 15) (State.reset.setI 0x0FF0)) ∧
    (AccessFaults (.ldVxMem 0) (State.reset.setI 0x1000) ∧
      ¬ AccessFaults (.ldVxMem 0) (State.reset.setI 0x0FFF)) ∧
    ¬ AccessFaults (.drw 0 0 0) (State.reset.setI 0xFFFF) := by decide

theorem witness_AddressFaultIsPrecise_step :
    CoreRuns ((ready 0xF033).setI 0x0FFE) ∧ Fetches ((ready 0xF033).setI 0x0FFE) (.ldBVx 0) ∧
    AccessFaults (.ldBVx 0) ((ready 0xF033).setI 0x0FFE) :=
  ⟨by decide, ⟨0xF0, 0x33, by decide⟩, by decide⟩

theorem witness_TickCountsDownToZero : (turns [.tick] (State.reset.setDt 1)).nextTurn = .tick := by decide

theorem witness_DelayTimerRisesOnlyByLdDt :
    ∃ t, step (State.setV (ready 0xF015) 0 5) = .next t ∧ (State.setV (ready 0xF015) 0 5).dt.toNat < t.dt.toNat :=
  ⟨_, rfl, by decide⟩

theorem witness_LoadCopiesProgram :
    (turns [.load [0x60, 0x19]] State.reset).nextTurn = .load [0x60, 0x19] ∧
    (turns [.load [0x60, 0x19]] State.reset).env.started = false ∧
    (turns [.load [0x60, 0x19]] State.reset).memWf := by decide

theorem witness_OnlyLateLoadHasNoNextState :
    (turns [.load []] State.reset.markStarted).nextTurn = .load [] ∧
    (turns [.load []] State.reset.markStarted).env.started = true := by decide

theorem witness_OnlyLateLoadHasNoNextState_runs :
    ∀ bytes, State.reset.nextTurn = .load bytes → State.reset.env.started = false := fun _ _ => rfl

theorem witness_OnlyResetRevivesAndClears :
    (turns [.reset] halted).nextTurn = .reset ∧
    (∃ t, step (ready 0xE19E) = .next t ∧ (ready 0xE19E).nextTurn ≠ .reset) ∧
    (halted.run = .halted ∧ ∃ t, step halted = .next t ∧ halted.nextTurn ≠ .reset) :=
  ⟨by decide, ⟨_, rfl, by decide⟩, by decide, _, rfl, by decide⟩

theorem witness_PushThenPopIsLifo :
    ({ State.reset with sp := 15 } : State).sp.val < 16 ∧ ({ State.reset with sp := 16 } : State).sp.val = 16 ∧
    State.reset.sp.val = 0 := by decide

theorem witness_CallPushesReturnAddress :
    ({ State.reset with sp := 15 } : State).sp.val < 16 ∧ ({ State.reset with sp := 16 } : State).sp.val = 16 := by
  decide

theorem witness_RetPopsReturnAddress :
    0 < ({ State.reset with sp := 1 } : State).sp.val ∧ State.reset.sp.val = 0 := by decide

/-- A carry of exactly 256, and none at 255. -/
theorem witness_AddWritesCarryLast : carryFlag 0xFF 0x01 = 1 ∧ carryFlag 0xFF 0x00 = 0 := by decide

theorem witness_LdBStoresDecimalDigits :
    ((State.reset.setI 0x0FFD).memWf ∧ (State.reset.setI 0x0FFD).i.toNat ≤ 0x0FFD) ∧
    0x0FFD < (State.reset.setI 0x0FFE).i.toNat := by decide

theorem witness_LdMemStoresRegisters :
    ((State.reset.setI 0x0FF0).memWf ∧ (State.reset.setI 0x0FF0).i.toNat + (15 : Reg).val ≤ 0x0FFF) ∧
    0x0FFF < (State.reset.setI 0x0FF1).i.toNat + (15 : Reg).val := by decide

theorem witness_LdVxMemLoadsRegisters :
    (State.reset.setI 0x0FFF).i.toNat + (0 : Reg).val ≤ 0x0FFF ∧
    0x0FFF < (State.reset.setI 0x1000).i.toNat + (0 : Reg).val := by decide

theorem witness_StoredWordIsFetched :
    (State.reset.setI 0x0FFE).memWf ∧ 1 ≤ (1 : Reg).val ∧
    (State.reset.setI 0x0FFE).i.toNat + (1 : Reg).val ≤ 0x0FFF := by decide

theorem witness_DrwXorsSpriteAndReportsCollision :
    (0 : Nibble).toNat = 0 ∧ (State.reset.setI 0x0FF1).i.toNat + (15 : Nibble).toNat - 1 ≤ 0x0FFF ∧
    ((15 : Nibble).toNat ≠ 0 ∧ 0x0FFF < (State.reset.setI 0x0FF2).i.toNat + (15 : Nibble).toNat - 1) := by decide

/-- A sprite of one row with one cell. -/
def dot : State := poke 0x300 [0x80] (State.reset.setI 0x300)

theorem witness_DrawingTwiceRestoresDisplay :
    ∃ t u, dot.run ≠ .halted ∧ exec (.drw 0 1 1) dot = .next t ∧ t.run ≠ .halted ∧ exec (.drw 0 1 1) t = .next u :=
  ⟨_, _, by decide, rfl, by decide, rfl⟩

theorem witness_SoundRegisterIsSetAndNeverCounts :
    ∃ t, step (State.setV (ready 0xF018) 0 5) = .next t ∧ t.st ≠ (State.setV (ready 0xF018) 0 5).st :=
  ⟨_, rfl, by decide⟩

theorem witness_KeyWaitBegins :
    (CoreRuns (offer .none (ready 0xFF0A)) ∧ Fetches (offer .none (ready 0xFF0A)) (.ldVxK 15) ∧
      (offer .none (ready 0xFF0A)).env.events = .none :: []) ∧
    (CoreRuns (offer .quit (ready 0xFF0A)) ∧ Fetches (offer .quit (ready 0xFF0A)) (.ldVxK 15) ∧
      (offer .quit (ready 0xFF0A)).env.events = .quit :: []) :=
  ⟨⟨by decide, ⟨0xFF, 0x0A, by decide⟩, rfl⟩, by decide, ⟨0xFF, 0x0A, by decide⟩, rfl⟩

theorem witness_KeyArrivalCompletesWait :
    (offer (.keyboard 55) waiting).nextTurn = .core ∧ (offer (.keyboard 55) waiting).run = .waitingForKey ∧
    (offer (.keyboard 55) waiting).env.events = .keyboard 55 :: [] := by decide

theorem witness_RegisterOnlyFrame :
    ∃ t, registerDests (.addVxVy 1 2) = some [1, 0xF] ∧ exec (.addVxVy 1 2) State.reset = .next t :=
  ⟨_, rfl, rfl⟩

theorem witness_RegisterOnlyFrame_rnd :
    ∃ t, registerDests (.rnd 1 0xFF) = some [1] ∧ exec (.rnd 1 0xFF) (dice 7 State.reset) = .next t :=
  ⟨_, rfl, rfl⟩

theorem witness_ControlFlowFrame :
    (∃ t, pcOnly (.jp 0x300) = true ∧ exec (.jp 0x300) State.reset = .next t) ∧
    (∃ t, exec .ret State.reset = .next t) ∧ (∃ t, exec (.call 0x300) State.reset = .next t) ∧
    (∃ t, exec .ret { State.reset with sp := 1 } = .next t ∧ t.sp.val = 0) ∧
    (∃ t, exec (.call 0x300) { State.reset with sp := 16 } = .next t ∧ t.diag.sovf = true) :=
  ⟨⟨_, rfl, rfl⟩, ⟨_, rfl⟩, ⟨_, rfl⟩, ⟨_, rfl, rfl⟩, _, rfl, rfl⟩

theorem witness_SingleItemFrame :
    (∃ t, exec (.addIVx 0) State.reset = .next t ∧ indexOnly (.addIVx 0) = true) ∧
    (∃ t, exec (.ldDtVx 1) State.reset = .next t) ∧ (∃ t, exec (.ldStVx 1) State.reset = .next t) ∧
    (∃ t, exec (.ldVxK 1) State.reset = .next t) ∧ (∃ t, exec .halt0 State.reset = .next t) ∧
    (∃ t, exec .cls State.reset = .next t) :=
  ⟨⟨_, rfl, rfl⟩, ⟨_, rfl⟩, ⟨_, rfl⟩, ⟨_, rfl⟩, ⟨_, rfl⟩, _, rfl⟩

/-- A store inside memory, and one out of range. -/
theorem witness_StoreFrame :
    (∃ t, isStore (.ldMemVx 2) = true ∧ exec (.ldMemVx 2) (State.reset.setI 0x400) = .next t ∧
      ¬ AccessFaults (.ldMemVx 2) (State.reset.setI 0x400) ∧ dataAddr (State.reset.setI 0x400) 0 = 0x400) ∧
    (∃ t, isStore (.ldBVx 2) = true ∧ exec (.ldBVx 2) (State.reset.setI 0xFFFF) = .next t ∧
      AccessFaults (.ldBVx 2) (State.reset.setI 0xFFFF)) :=
  ⟨⟨_, rfl, rfl, by decide, rfl⟩, _, rfl, rfl, by decide⟩

theorem witness_LoadAndDrawFrame :
    (∃ t, exec (.ldVxMem 2) (State.reset.setI 0x400) = .next t ∧
      ¬ AccessFaults (.ldVxMem 2) (State.reset.setI 0x400)) ∧
    (∃ t, exec (.drw 0 1 2) (State.reset.setI 0x0FFF) = .next t ∧
      AccessFaults (.drw 0 1 2) (State.reset.setI 0x0FFF)) :=
  ⟨⟨_, rfl, by decide⟩, _, rfl, by decide⟩

theorem witness_OnlyStoresWriteMemoryOnlyPaintersDisplay :
    (∃ t, step ((State.setV (ready 0xF055) 0 7).setI 0x400) = .next t ∧
      t.readByte 0x400 ≠ ((State.setV (ready 0xF055) 0 7).setI 0x400).readByte 0x400) ∧
    (∃ t, step (light 0 0 (ready 0x00E0)) = .next t ∧
      t.getPixelAt 0 0 ≠ (light 0 0 (ready 0x00E0)).getPixelAt 0 0) :=
  ⟨⟨_, rfl, by decide⟩, _, rfl, by decide⟩

theorem witness_VfIsFlagOrDestination :
    (∃ t, exec (.ldVxNn 0xF 9) State.reset = .next t ∧ t.getV 0xF ≠ State.reset.getV 0xF) ∧
    (∃ t, exec (.subVxVy 1 2) State.reset = .next t ∧ isFlagWriter (.subVxVy 1 2) = true ∧ t.run ≠ .halted ∧
      writtenX (.subVxVy 1 2) ≠ some 0xF) :=
  ⟨⟨_, rfl, by decide⟩, _, rfl, rfl, by decide, by decide⟩

/-- A step for each way in which `RUN` changes. -/
theorem witness_RunTransitions :
    ([ready 0xF30A, offer (.keyboard 55) waiting, offer .quit waiting, offer .quit (ready 0x6019), State.reset,
        State.reset.setPc 0x0FFF, (ready 0xF033).setI 0x0FFE].map fun s =>
      (decide (s.nextTurn ≠ .reset), s.run, seen (step s) fun t => (t.run, t.haltCause))) =
      [(true, .running, some (.waitingForKey, .none)), (true, .waitingForKey, some (.running, .none)),
       (true, .waitingForKey, some (.halted, .quit)), (true, .running, some (.halted, .quit)),
       (true, .running, some (.halted, .zeroWord)), (true, .running, some (.halted, .fetchFault)),
       (true, .running, some (.halted, .addrFault))] := by decide

theorem witness_StepKeepsInvariant : ∃ t, State.Inv (ready 0x2300) ∧ step (ready 0x2300) = .next t :=
  ⟨_, by decide, rfl⟩

theorem witness_DelayTimerSeenOnlyByLdVxDt :
    ∃ t, ¬ (CoreRuns waiting ∧ ∃ x, Fetches waiting (.ldVxDt x)) ∧ step waiting = .next t :=
  ⟨_, fun h => absurd h.1 (by decide), rfl⟩

theorem witness_SoundRegisterIsNeverRead : ∃ t, step (ready 0x6019) = .next t := ⟨_, rfl⟩

theorem witness_DeadStackEntriesAreUnobservable :
    ∃ t, sameLive State.reset { State.reset with stack := State.reset.stack.set 3 0x0456 } ∧
      step State.reset = .next t :=
  ⟨_, ⟨rfl, by decide⟩, rfl⟩

end Sys2Proof.Tests
end

section
/-! PROOF of the statements of 00_scope.md: the bit-field utilities and the decimal split of R12, each as arithmetic
on the word or the byte. -/

namespace Sys2Proof

/-- A bit field of a word as arithmetic: a division drops the bits below it, a remainder those above it. -/
theorem extractField_toNat (w : Word) (start len : Nat) :
    (w.extractLsb' start len).toNat = w.toNat / 2 ^ start % 2 ^ len := by
  rw [BitVec.extractLsb'_toNat, Nat.shiftRight_eq_div_pow]

theorem extractLowField_toNat (w : Word) (len : Nat) : (w.extractLsb' 0 len).toNat = w.toNat % 2 ^ len := by
  rw [extractField_toNat, pow_zero, Nat.div_one]

/-- The remainder can be left out: no bit of a word stands above its high nibble. -/
theorem highNibble_toNat (w : Word) : (highNibble w).toNat = w.toNat / 0x1000 :=
  (extractField_toNat w 12 4).trans (Nat.mod_eq_of_lt (Nat.div_lt_of_lt_mul w.isLt))

theorem lowNibbleOfHighByte_toNat (w : Word) : (lowNibbleOfHighByte w).toNat = w.toNat / 0x100 % 16 :=
  extractField_toNat w 8 4

theorem highNibbleOfLowByte_toNat (w : Word) : (highNibbleOfLowByte w).toNat = w.toNat / 0x10 % 16 :=
  extractField_toNat w 4 4

theorem lowNibbleOfLowByte_toNat (w : Word) : (lowNibbleOfLowByte w).toNat = w.toNat % 16 :=
  extractLowField_toNat w 4

theorem lowByte_toNat (w : Word) : (lowByte w).toNat = w.toNat % 0x100 :=
  extractLowField_toNat w 8

theorem twelveBits_toNat (w : Word) : (twelveBits w).toNat = w.toNat % 0x1000 :=
  extractLowField_toNat w 12

end Sys2Proof

namespace Sys2Proof.Machine

/-- Each digit is at most the byte it comes from, so that writing it to a byte loses nothing. -/
theorem splitDecimal_toNat {b h t o : Byte} (hsplit : splitDecimal b = (h, t, o)) :
    h.toNat = b.toNat / 100 ∧ t.toNat = b.toNat / 10 % 10 ∧ o.toNat = b.toNat % 10 := by
  have toNat_ofNat_of_le {n : Nat} (hn : n ≤ b.toNat) : (BitVec.ofNat 8 n).toNat = n :=
    Nat.mod_eq_of_lt (hn.trans_lt b.isLt)
  cases hsplit
  exact ⟨toNat_ofNat_of_le (Nat.div_le_self ..),
    toNat_ofNat_of_le ((Nat.mod_le ..).trans (Nat.div_le_self ..)),
    toNat_ofNat_of_le (Nat.mod_le ..)⟩

/-- Settles O6: the fields by `extractField_toNat`, the digits' bounds and sum from `splitDecimal_toNat`, the
document's examples by evaluation. -/
theorem bitFieldUtilitiesAreExact : Obligations.BitFieldUtilitiesAreExact := by
  refine ⟨fun w => ⟨highNibble_toNat w, lowNibbleOfHighByte_toNat w, highNibbleOfLowByte_toNat w,
    lowNibbleOfLowByte_toNat w, lowByte_toNat w, twelveBits_toNat w⟩, fun b h t o hsplit => ?_, by decide⟩
  obtain ⟨hundreds, tens, ones⟩ := splitDecimal_toNat hsplit
  have b_lt : b.toNat < 256 := b.isLt
  refine ⟨hundreds, tens, ones, ?_⟩
  omega

end Sys2Proof.Machine
end

section
/-! PROOF of the statements of 30_encoding.md: what the decoder's fields read from a word packed by a format of R91,
and from it that the decoder inverts the encoder (R105). -/

namespace Sys2Proof

/-! The fields of each format of R91. -/

@[simp] theorem highNibble_packNnn (op : BitVec 4) (nnn : Addr) : highNibble (packNnn op nnn) = op :=
  BitVec.extractLsb'_append_eq_left

@[simp] theorem twelveBits_packNnn (op : BitVec 4) (nnn : Addr) : twelveBits (packNnn op nnn) = nnn :=
  BitVec.extractLsb'_append_eq_right

/-- Format XNN is format NNN whose address is `x` and `nn` together. -/
theorem packXnn_eq_packNnn (op : BitVec 4) (x : Reg) (nn : Byte) :
    packXnn op x nn = packNnn op ((BitVec.ofFin x : BitVec 4) ++ nn) :=
  BitVec.append_assoc

/-- Format XYN is format XNN whose byte is `y` and `n` together. -/
theorem packXyn_eq_packXnn (op : BitVec 4) (x y : Reg) (n : Nibble) :
    packXyn op x y n = packXnn op x ((BitVec.ofFin y : BitVec 4) ++ n) :=
  BitVec.append_assoc

@[simp] theorem highNibble_packXnn (op : BitVec 4) (x : Reg) (nn : Byte) : highNibble (packXnn op x nn) = op := by
  rw [packXnn_eq_packNnn, highNibble_packNnn]

@[simp] theorem lowByte_packXnn (op : BitVec 4) (x : Reg) (nn : Byte) : lowByte (packXnn op x nn) = nn :=
  BitVec.extractLsb'_append_eq_right

@[simp] theorem fieldX_packXnn (op : BitVec 4) (x : Reg) (nn : Byte) : fieldX (packXnn op x nn) = x := by
  have nibble : lowNibbleOfHighByte (packXnn op x nn) = BitVec.ofFin x :=
    (BitVec.extractLsb'_append_eq_of_le (Nat.le_refl 8)).trans BitVec.extractLsb'_append_eq_right
  rw [fieldX, nibble]

@[simp] theorem highNibble_packXyn (op : BitVec 4) (x y : Reg) (n : Nibble) : highNibble (packXyn op x y n) = op := by
  rw [packXyn_eq_packXnn, highNibble_packXnn]

@[simp] theorem fieldX_packXyn (op : BitVec 4) (x y : Reg) (n : Nibble) : fieldX (packXyn op x y n) = x := by
  rw [packXyn_eq_packXnn, fieldX_packXnn]

@[simp] theorem fieldY_packXyn (op : BitVec 4) (x y : Reg) (n : Nibble) : fieldY (packXyn op x y n) = y := by
  have nibble : highNibbleOfLowByte (packXyn op x y n) = BitVec.ofFin y :=
    (BitVec.extractLsb'_append_eq_of_le (Nat.le_refl 4)).trans BitVec.extractLsb'_append_eq_right
  rw [fieldY, nibble]

@[simp] theorem lowNibbleOfLowByte_packXyn (op : BitVec 4) (x y : Reg) (n : Nibble) :
    lowNibbleOfLowByte (packXyn op x y n) = n :=
  BitVec.extractLsb'_append_eq_right

@[simp] theorem wordOf_highByte_lowByte (w : Word) : wordOf (highByte w) (lowByte w) = w :=
  BitVec.extractLsb'_append_extractLsb'

/-! The decoder's selections (R94). -/

/-- The test for the zero word, which R94 puts first, takes no word of another primary opcode. -/
theorem ne_zero_of_highNibble {w : Word} (h : highNibble w ≠ 0#4) : w ≠ 0#16 := by
  rintro rfl
  exact h rfl

theorem decodeWord_eq_decodeAlu {w : Word} (h : highNibble w = 0x8) : decodeWord w = decodeAlu w := by
  simp [decodeWord, h, ne_zero_of_highNibble]

theorem decodeWord_eq_decodeMisc {w : Word} (h : highNibble w = 0xF) : decodeWord w = decodeMisc w := by
  simp [decodeWord, h, ne_zero_of_highNibble]

/-- R105, by what R94 selects the instruction on: the whole word, the primary opcode (with `n` zero for 5 and 9), the
nibble `n` under 8, or the byte `nn` under F. -/
@[simp] theorem decodeWord_encode (i : Instr) : decodeWord (encode i) = .ok i := by
  cases i with
  | halt0 | cls | ret => rfl
  | jp | call | seVxNn | sneVxNn | seVxVy | ldVxNn | addVxNn | sneVxVy | ldINnn | jpV0 | rnd | drw =>
    simp [encode, decodeWord, ne_zero_of_highNibble]
  | ldVxVy | orVxVy | andVxVy | xorVxVy | addVxVy | subVxVy | shrVxVy | subnVxVy | shlVxVy =>
    simp [encode, decodeWord_eq_decodeAlu, decodeAlu]
  | ldVxDt | ldVxK | ldDtVx | ldStVx | addIVx | ldFVx | ldBVx | ldMemVx | ldVxMem =>
    simp [encode, decodeWord_eq_decodeMisc, decodeMisc]

/-- Settles O1: the two bytes make up the word of the instruction, and `decodeWord_encode` decodes it. -/
theorem decodeInvertsEncode : Obligations.DecodeInvertsEncode := by
  intro i rest
  simp [encodeBytes, decode]

end Sys2Proof
end

section
/-! PROOF of the statements of 40_fetch_decode_step.md: what a step is once its turn, `RUN` and the fetched instruction
are known (R121, R126), and what a poll does with the event it takes (R130). -/

namespace Sys2Proof.Machine

open Sys2Proof.Claims

variable {s t : State} {i : Instr}

/-! The step by its turn and by `RUN`. -/

theorem step_of_core_turn (h : s.nextTurn = .core) : step s = coreTurn (s.withTurns s.env.turns.tail) := by
  rw [step, machineStep, h, takeTurn]

theorem step_of_tick_turn (h : s.nextTurn = .tick) : step s = .next (s.withTurns s.env.turns.tail).tick := by
  rw [step, machineStep, h, takeTurn]

theorem step_of_waiting (hturn : s.nextTurn = .core) (hrun : s.run = .waitingForKey) :
    step s = .next (s.setEnv (envAfterCore s)).poll := by
  have waits : (s.withTurns s.env.turns.tail).run = .waitingForKey := hrun
  rw [step_of_core_turn hturn, coreTurn, waits]
  rfl

theorem step_of_running (h : CoreRuns s) : step s = stepRunning (s.setEnv (envAfterCore s)) := by
  obtain ⟨hturn, hrun⟩ := h
  have runs : (s.withTurns s.env.turns.tail).run = .running := hrun
  rw [step_of_core_turn hturn, coreTurn, runs]
  rfl

/-! The Running step by the instruction it fetches. -/

/-- `Fetches` speaks of two bytes (R90), the step of their word (R62). -/
theorem decode_pair_eq_ok {hi lo : Byte} : decode [hi, lo] = .ok (i, []) ↔ decodeWord (wordOf hi lo) = .ok i := by
  cases h : decodeWord (wordOf hi lo) <;> simp [decode, h]

theorem fetchWord_of_fetches (h : Fetches s i) : ∃ w, s.fetchWord = some w ∧ decodeWord w = .ok i := by
  obtain ⟨hi, lo, hhi, hlo, hdecode⟩ := h
  exact ⟨_, (s.fetchWord_iff _).mpr ⟨hi, lo, hhi, hlo, rfl⟩, decode_pair_eq_ok.mp hdecode⟩

theorem stepRunning_of_fetches (h : Fetches s i) : stepRunning s = runInstr i s := by
  obtain ⟨w, hfetch, hdecode⟩ := fetchWord_of_fetches h
  simp only [stepRunning, hfetch, runWord, hdecode]

theorem runInstr_of_exec (h : exec i (beforeExecute i s) = .next t) : runInstr i s = .next (afterExecute t) := by
  rw [runInstr, h]

/-- The outside is no part of what a fetch reads, so the bookkeeping before the step does not matter to it. -/
theorem step_of_fetches (hruns : CoreRuns s) (hfetch : Fetches s i) :
    step s = runInstr i (s.setEnv (envAfterCore s)) := by
  have hfetch' : Fetches (s.setEnv (envAfterCore s)) i := hfetch
  rw [step_of_running hruns, stepRunning_of_fetches hfetch']

/-- LD Vx, K (R246) never halts, so the poll of the same step always follows, and sees WaitingForKey. -/
theorem step_of_fetches_ldVxK {x : Reg} (hruns : CoreRuns s) (hfetch : Fetches s (.ldVxK x)) :
    step s = .next (((s.setEnv (envAfterCore s)).advancePc.setKeyreg x).setRun .waitingForKey).poll := by
  rw [step_of_fetches hruns hfetch, runInstr_of_exec (i := .ldVxK x) rfl]
  exact congrArg _ (if_neg Run.noConfusion)

/-! The poll by the event it takes. -/

theorem State.poll_of_nextEvent {e : Event} (h : s.nextEvent = e) : s.poll = s.dropEvent.onEvent e := by
  rw [State.poll, h]

theorem State.poll_of_events {e : Event} {es : List Event} (h : s.env.events = e :: es) :
    s.poll = (s.setEnv { s.env with events := es }).onEvent e := by
  rw [State.poll_of_nextEvent (e := e) (by rw [State.nextEvent, h, List.headD_cons]), State.dropEvent, h,
    List.tail_cons]

theorem State.poll_of_key_waiting {k : Byte} {es : List Event} (hkey : s.env.events = .keyboard k :: es)
    (hrun : s.run = .waitingForKey) : s.poll = (s.setEnv { s.env with events := es }).deliverKey k :=
  (State.poll_of_events hkey).trans (if_pos hrun)

theorem State.poll_of_key_not_waiting {k : Byte} {es : List Event} (hkey : s.env.events = .keyboard k :: es)
    (hrun : s.run ≠ .waitingForKey) : s.poll = s.setEnv { s.env with events := es } :=
  (State.poll_of_events hkey).trans (if_neg hrun)

@[simp] theorem State.poll_pc (s : State) : s.poll.pc = s.pc := by rw [State.poll_eq]

@[simp] theorem State.poll_mem (s : State) : s.poll.mem = s.mem := by rw [State.poll_eq]

/-! The arrival of a key (R247). -/

@[simp] theorem State.getV_deliverKey_keyreg (s : State) (k : Byte) : (s.deliverKey k).getV s.keyreg = k :=
  s.getV_setV_same s.keyreg k

theorem State.regsKept_deliverKey (s : State) (k : Byte) : regsKept [s.keyreg] s (s.deliverKey k) :=
  fun _ hr => s.getV_setV_ne (List.ne_of_not_mem_cons hr) k

/-- Settles O12: the waiting step is the poll, which keeps `PC` and memory (`State.poll_eq`) and does nothing with no
event; a tick does not write `RUN`. -/
theorem waitingStepOnlyPolls : Obligations.WaitingStepOnlyPolls := by
  refine ⟨fun s hturn hrun => ⟨_, step_of_waiting hturn hrun, rfl, State.poll_pc _, State.poll_mem _, fun hnone => ?_⟩,
    fun s hturn hrun => ⟨_, step_of_tick_turn hturn, ?_, State.tick_dt _⟩⟩
  · have noEvent : (s.setEnv (envAfterCore s)).nextEvent = .none := hnone
    rw [State.poll_of_nextEvent noEvent]
    exact hrun
  · rw [State.tick_eq]
    exact hrun

/-- Settles O14: `State.poll_of_events` hands the event at the head to `State.onEvent`; a key in the step of LD Vx, K
finds the core waiting for `x`, as `step_of_fetches_ldVxK` says. -/
theorem pollTakesOneEvent : Obligations.PollTakesOneEvent := by
  refine ⟨fun s es hquit => ?quit, fun s k es hkey hwait => ?keyWaiting, fun s k es hkey hrun => ?keyRunning,
    fun s es hnone => ?none, fun s x k es hruns hfetch hkey => ?keyAtOnce⟩
  case quit => exact State.poll_of_events hquit
  case keyWaiting =>
    exact ⟨_, State.poll_of_key_waiting hkey hwait, State.getV_deliverKey_keyreg _ k, State.regsKept_deliverKey _ k, rfl⟩
  case keyRunning =>
    exact State.poll_of_key_not_waiting hkey (by simp [hrun])
  case none => exact State.poll_of_events hnone
  case keyAtOnce =>
    exact ⟨_, (step_of_fetches_ldVxK hruns hfetch).trans (congrArg _ (State.poll_of_key_waiting hkey rfl)),
      State.getV_deliverKey_keyreg _ k, rfl⟩

end Sys2Proof.Machine
end

section
/-! PROOF, shared by the families whose statements give an encoding as a number: the number that each format of R91
makes, so that the decoder reads an instruction back from its pattern of R96. -/

namespace Sys2Proof

open Sys2Proof.Claims

/-- Two fields side by side as arithmetic: the upper one stands above the width of the lower one. -/
theorem toNat_append_eq_add {m n : Nat} (hi : BitVec m) (lo : BitVec n) :
    (hi ++ lo).toNat = 2 ^ n * hi.toNat + lo.toNat := by
  rw [BitVec.toNat_append, ← Nat.shiftLeft_add_eq_or_of_lt lo.isLt, Nat.shiftLeft_eq, Nat.mul_comm]

theorem toNat_packNnn (op : BitVec 4) (nnn : Addr) : (packNnn op nnn).toNat = 0x1000 * op.toNat + nnn.toNat :=
  toNat_append_eq_add op nnn

theorem toNat_packXnn (op : BitVec 4) (x : Reg) (nn : Byte) :
    (packXnn op x nn).toNat = 0x1000 * op.toNat + 0x100 * x.val + nn.toNat := by
  rw [packXnn_eq_packNnn, toNat_packNnn, toNat_append_eq_add]
  exact (Nat.add_assoc ..).symm

theorem toNat_packXyn (op : BitVec 4) (x y : Reg) (n : Nibble) :
    (packXyn op x y n).toNat = 0x1000 * op.toNat + 0x100 * x.val + 0x10 * y.val + n.toNat := by
  rw [packXyn_eq_packXnn, toNat_packXnn, toNat_append_eq_add]
  exact (Nat.add_assoc ..).symm

/-- The decoder reads an instruction from the number of its word (R105). -/
theorem decodes_of_toNat_encode {i : Instr} {w : Nat} (h : (encode i).toNat = w) : Decodes w i := by
  rw [Decodes, ← h, BitVec.ofNat_toNat, BitVec.setWidth_eq, decodeWord_encode]

end Sys2Proof
end

section
/-! PROOF of the statements of 41_control_flow.md: the jumps and skips by the `PC` they leave, the encodings by the
number of each word's format, and the call stack by what a push and a pop answer. -/

namespace Sys2Proof.Machine

variable (s : State)

/-! Call stack (R150, R151). -/

/-- Last in, first out: the pop reads the entry that the push wrote, at the depth the push began from. -/
theorem State.push_then_pop (a : Word) (h : s.sp.val < 16) :
    ∃ t, s.push a = some t ∧ t.sp.val = s.sp.val + 1 ∧
      t.pop = some (a, { s with stack := s.stack.set s.sp.val a }) := by
  rcases s.push_eq a with ⟨_, hpush⟩ | ⟨full, _⟩
  · refine ⟨_, hpush, rfl, ?_⟩
    rcases State.pop_eq { s with stack := s.stack.set s.sp.val a, sp := ⟨s.sp.val + 1, by omega⟩ } with
      ⟨_, hpop⟩ | ⟨empty, _⟩
    · simp [hpop]
    · exact absurd empty (Nat.succ_ne_zero _)
  · omega

theorem State.push_of_full (a : Word) (h : s.sp.val = 16) : s.push a = none := by
  rcases s.push_eq a with ⟨room, _⟩ | ⟨_, hpush⟩
  · omega
  · exact hpush

theorem State.pop_of_empty (h : s.sp.val = 0) : s.pop = none := by
  rcases s.pop_eq with ⟨live, _⟩ | ⟨_, hpop⟩
  · omega
  · exact hpop

/-- Settles O22: the entry the push wrote is the one at the old `SP`, which is dead again after the pop. -/
theorem pushThenPopIsLifo : Obligations.PushThenPopIsLifo := by
  refine ⟨fun s a hdepth => ?_, State.push_of_full, State.pop_of_empty⟩
  obtain ⟨t, hpush, hsp, hpop⟩ := s.push_then_pop a hdepth
  exact ⟨t, _, hpush, hsp, hpop, rfl, rfl, fun k hk => Vector.getElem_set_ne hdepth k.isLt (by omega)⟩

/-! Jumps (R153, R155). -/

@[simp] theorem toNat_addrWord (nnn : Addr) : (addrWord nnn).toNat = nnn.toNat :=
  BitVec.toNat_setWidth_of_le (by decide)

@[simp] theorem toNat_byteWord (b : Byte) : (byteWord b).toNat = b.toNat :=
  BitVec.toNat_setWidth_of_le (by decide)

/-- The sum is at most `0xFF + 0xFFF`, so the addition does not wrap. -/
theorem toNat_byteWord_add_addrWord (b : Byte) (nnn : Addr) :
    (byteWord b + addrWord nnn).toNat = b.toNat + nnn.toNat := by
  have b_lt : b.toNat < 0x100 := b.isLt
  have nnn_lt : nnn.toNat < 0x1000 := nnn.isLt
  rw [BitVec.toNat_add_of_lt (by simp only [toNat_byteWord, toNat_addrWord]; omega), toNat_byteWord, toNat_addrWord]

/-- Settles O25: each jump is `State.setPc`, of the address or of the sum that does not wrap. -/
theorem jumpsSetPc : Obligations.JumpsSetPc := fun nnn s =>
  ⟨decodes_of_toNat_encode (toNat_packNnn 0x1 nnn), decodes_of_toNat_encode (toNat_packNnn 0xB nnn),
    ⟨_, rfl, toNat_addrWord nnn, rfl⟩, _, rfl, toNat_byteWord_add_addrWord (s.getV 0) nnn, rfl⟩

/-! Skips (R156 to R159). -/

theorem State.skipIf_beq (a b : Byte) : s.skipIf (a == b) = s.setPc (if a = b then s.pc + 2 else s.pc) := by
  simp only [State.skipIf_eq, beq_iff_eq]

theorem State.skipIf_bne (a b : Byte) : s.skipIf (a != b) = s.setPc (if a = b then s.pc else s.pc + 2) := by
  simp only [State.skipIf_eq, bne_iff_ne, ite_not]

/-- Settles O26: each skip is `State.skipIf` of the comparison of its two operands. -/
theorem skipsPassOneWord : Obligations.SkipsPassOneWord := fun x y nn s =>
  ⟨decodes_of_toNat_encode (toNat_packXnn 0x3 x nn), decodes_of_toNat_encode (toNat_packXnn 0x4 x nn),
    decodes_of_toNat_encode (toNat_packXyn 0x5 x y 0), decodes_of_toNat_encode (toNat_packXyn 0x9 x y 0),
    congrArg _ (s.skipIf_beq (s.getV x) nn), congrArg _ (s.skipIf_bne (s.getV x) nn),
    congrArg _ (s.skipIf_beq (s.getV x) (s.getV y)), congrArg _ (s.skipIf_bne (s.getV x) (s.getV y))⟩

end Sys2Proof.Machine
end

section
/-! PROOF of the statements of 42_load_alu_random.md: what a write of one general register reads back as and leaves
unchanged, the bits of OR, AND and XOR, and the encodings by the number of each word's format. -/

namespace Sys2Proof.Machine

open Sys2Proof.Claims

variable (s : State)

/-- The frame of a write of one register: no other register, VF included, and no other item of the state. -/
theorem State.setV_frame (x : Reg) (b : Byte) :
    regsKept [x] s (s.setV x b) ∧ s.setV x b = { s with v := (s.setV x b).v } :=
  ⟨fun _ hr => s.getV_setV_ne (List.ne_of_not_mem_cons hr) b, rfl⟩

/-! Loads and the immediate add (R170, R171, R177). -/

theorem State.toNat_getV_setV_add (x : Reg) (a b : Byte) :
    ((s.setV x (a + b)).getV x).toNat = (a.toNat + b.toNat) % 256 := by
  rw [State.getV_setV_same, BitVec.toNat_add]

/-- Settles O27: each of the three is a write of `V[x]` alone, the sum modulo 256 by the addition of bytes. -/
theorem loadsAndImmediateAdd : Obligations.LoadsAndImmediateAdd := fun x y nn s =>
  ⟨decodes_of_toNat_encode (toNat_packXnn 0x6 x nn), decodes_of_toNat_encode (toNat_packXnn 0x7 x nn),
    decodes_of_toNat_encode (toNat_packXyn 0x8 x y 0),
    ⟨_, rfl, s.getV_setV_same x nn, s.setV_frame x nn⟩,
    ⟨_, rfl, s.toNat_getV_setV_add x (s.getV x) nn, s.setV_frame x _⟩,
    ⟨_, rfl, s.getV_setV_same x (s.getV y), s.setV_frame x _⟩⟩

/-! The bitwise operations (R178 to R180). -/

/-- A word of format XYN in the order in which an opcode's number with a fixed `n` is written: `n` beside the opcode. -/
theorem decodes_of_encode_eq_packXyn {i : Instr} {op : BitVec 4} {x y : Reg} {n : Nibble}
    (h : encode i = packXyn op x y n) :
    Decodes (0x1000 * op.toNat + n.toNat + 0x100 * x.val + 0x10 * y.val) i :=
  decodes_of_toNat_encode (by rw [h, toNat_packXyn]; omega)

theorem State.getLsbD_getV_setV_or (x : Reg) (a b : Byte) (k : Nat) :
    ((s.setV x (a ||| b)).getV x).getLsbD k = (a.getLsbD k || b.getLsbD k) := by
  rw [State.getV_setV_same, BitVec.getLsbD_or]

theorem State.getLsbD_getV_setV_and (x : Reg) (a b : Byte) (k : Nat) :
    ((s.setV x (a &&& b)).getV x).getLsbD k = (a.getLsbD k && b.getLsbD k) := by
  rw [State.getV_setV_same, BitVec.getLsbD_and]

theorem State.getLsbD_getV_setV_xor (x : Reg) (a b : Byte) (k : Nat) :
    ((s.setV x (a ^^^ b)).getV x).getLsbD k = (a.getLsbD k ^^ b.getLsbD k) := by
  rw [State.getV_setV_same, BitVec.getLsbD_xor]

/-- Settles O28: each of the three is a write of `V[x]` alone, of a byte whose bits the operation gives. -/
theorem logicIsBitwise : Obligations.LogicIsBitwise := fun x y s =>
  ⟨decodes_of_encode_eq_packXyn (op := 0x8) (n := 1) rfl, decodes_of_encode_eq_packXyn (op := 0x8) (n := 2) rfl,
    decodes_of_encode_eq_packXyn (op := 0x8) (n := 3) rfl,
    ⟨_, rfl, s.getLsbD_getV_setV_or x (s.getV x) (s.getV y), s.setV_frame x _⟩,
    ⟨_, rfl, s.getLsbD_getV_setV_and x (s.getV x) (s.getV y), s.setV_frame x _⟩,
    ⟨_, rfl, s.getLsbD_getV_setV_xor x (s.getV x) (s.getV y), s.setV_frame x _⟩⟩

end Sys2Proof.Machine
end

section
/-! PROOF of the statement of 43_index_memory.md on `I` as a destination: the address it takes, zero-extended, and the
encoding by the number of its word's format. -/

namespace Sys2Proof.Machine

/-- Settles O35: LD I writes `I` alone, with the address extended to 16 bits, which keeps its number. -/
theorem ldIndexTakesAddress : Obligations.LdIndexTakesAddress := fun nnn _ =>
  ⟨decodes_of_toNat_encode (toNat_packNnn 0xA nnn), _, rfl, toNat_addrWord nnn, rfl⟩

end Sys2Proof.Machine
end

section
/-! PROOF of the statement of 44_display.md on CLS: the host's read of a cell after a write of the display, and the
cleared display cell by cell (R221). -/

namespace Sys2Proof.Machine

@[simp] theorem State.getPixelAt_setDisp (s : State) (d : Display) (x : Fin 64) (y : Fin 32) :
    (s.setDisp d).getPixelAt x y = Display.cell d y x := rfl

theorem State.getPixelAt_setDisp_clear (s : State) (x : Fin 64) (y : Fin 32) :
    (s.setDisp Display.clear).getPixelAt x y = false := by
  rw [State.getPixelAt_setDisp, Display.cell_clear]

/-- Settles O41: CLS is `State.setDisp` of the cleared display, a write of the display alone. -/
theorem clsClearsEveryCell : Obligations.ClsClearsEveryCell :=
  ⟨decodes_of_toNat_encode rfl, fun s => ⟨s.setDisp Display.clear, rfl, s.getPixelAt_setDisp_clear, rfl⟩⟩

end Sys2Proof.Machine
end

section
/-! PROOF of the statements of 45_timer_key.md: the tick as a write of `DT` alone (R248), the transfers between `DT`
and a register (R240, R241), and the encodings FX07 and FX15 by the number of their format. -/

namespace Sys2Proof.Machine

open Sys2Proof.Claims

/-- Settles O16: the tick turn is `State.tick`, whatever `RUN` is; it writes `DT` alone, and the taken turn leaves the
list of coming turns. -/
theorem tickCountsDownToZero : Obligations.TickCountsDownToZero := fun s hturn =>
  ⟨(s.withTurns s.env.turns.tail).tick, step_of_tick_turn hturn, State.tick_dt _, State.tick_eq _⟩

/-- A word of format XNN in the order in which an opcode's number with a fixed `nn` is written: `nn` beside the opcode. -/
theorem decodes_of_encode_eq_packXnn {i : Instr} {op : BitVec 4} {x : Reg} {nn : Byte}
    (h : encode i = packXnn op x nn) : Decodes (0x1000 * op.toNat + nn.toNat + 0x100 * x.val) i :=
  decodes_of_toNat_encode (by rw [h, toNat_packXnn, Nat.add_right_comm])

/-- Settles O44: the read of `DT` is a write of `V[x]` alone, and its setting is `State.setDt`, whatever it held. -/
theorem delayTimerTransfers : Obligations.DelayTimerTransfers := fun x s =>
  ⟨decodes_of_encode_eq_packXnn (op := 0xF) (nn := 0x07) rfl, decodes_of_encode_eq_packXnn (op := 0xF) (nn := 0x15) rfl,
    ⟨s.setV x s.dt, rfl, s.getV_setV_same x s.dt, s.setV_frame x s.dt⟩, rfl⟩

end Sys2Proof.Machine
end

section
/-! PROOF, shared by the statements on frames and on the whole machine: everything an instruction can change (`Effect`)
and everything a step can be (`Transition`), each said once, and item by item what they keep. -/

namespace Sys2Proof.Machine

open Sys2Proof.Claims

variable {s t : State} {i : Instr}

/-! Fields after the parts of a Running step. -/

/-- Where an instruction executes (R121): the advance changes `PC` alone. -/
theorem beforeExecute_eq (i : Instr) (s : State) :
    beforeExecute i s = s.setPc (if i = .halt0 then s.pc else s.pc + 2) := by
  unfold beforeExecute
  split <;> rfl

@[simp] theorem State.poll_stack (s : State) : s.poll.stack = s.stack := by rw [State.poll_eq]
@[simp] theorem State.poll_sp (s : State) : s.poll.sp = s.sp := by rw [State.poll_eq]
@[simp] theorem State.poll_disp (s : State) : s.poll.disp = s.disp := by rw [State.poll_eq]
@[simp] theorem State.poll_dt (s : State) : s.poll.dt = s.dt := by rw [State.poll_eq]
@[simp] theorem State.poll_st (s : State) : s.poll.st = s.st := by rw [State.poll_eq]
@[simp] theorem State.poll_diag (s : State) : s.poll.diag = s.diag := by rw [State.poll_eq]
@[simp] theorem State.poll_params (s : State) : s.poll.params = s.params := by rw [State.poll_eq]
@[simp] theorem State.poll_started (s : State) : s.poll.env.started = s.env.started := by rw [State.poll_eq]

/-- The end of a Running step changes no more than a poll does. -/
theorem afterExecute_eq (s : State) :
    afterExecute s = { s with v := (afterExecute s).v, run := (afterExecute s).run,
                              haltCause := (afterExecute s).haltCause, env := (afterExecute s).env } := by
  rcases afterExecute_cases s with ⟨_, h⟩ | ⟨_, h⟩
  · rw [h]
  · rw [h, State.poll_eq]

@[simp] theorem afterExecute_mem (s : State) : (afterExecute s).mem = s.mem := by rw [afterExecute_eq]
@[simp] theorem afterExecute_disp (s : State) : (afterExecute s).disp = s.disp := by rw [afterExecute_eq]
@[simp] theorem afterExecute_dt (s : State) : (afterExecute s).dt = s.dt := by rw [afterExecute_eq]
@[simp] theorem afterExecute_st (s : State) : (afterExecute s).st = s.st := by rw [afterExecute_eq]
@[simp] theorem afterExecute_diag (s : State) : (afterExecute s).diag = s.diag := by rw [afterExecute_eq]
@[simp] theorem afterExecute_params (s : State) : (afterExecute s).params = s.params := by rw [afterExecute_eq]

/-! Data accesses (R65, R66). -/

/-- An access that does not fault has no bytes or lies wholly inside memory. -/
theorem not_accessFaults_iff : ¬ AccessFaults i s ↔ accessSize i = 0 ∨ s.i.toNat + accessSize i ≤ Config.memSize := by
  simp only [AccessFaults, Config.memSize]
  omega

theorem accessFaults_iff : AccessFaults i s ↔ accessSize i ≠ 0 ∧ Config.memSize < s.i.toNat + accessSize i := by
  simp only [AccessFaults, Config.memSize]
  omega

/-! The shifts in the order of R182 to R185. -/

theorem shiftRight_eq (readsVy : Bool) (x y : Reg) (s : State) :
    shiftRight readsVy x y s =
      s.flagThen (shiftedOutRight (s.getV (shiftSource readsVy x y))) x
        (fun t => t.getV (shiftSource readsVy x y) >>> 1) := rfl

theorem shiftLeft_eq (readsVy : Bool) (x y : Reg) (s : State) :
    shiftLeft readsVy x y s =
      s.flagThen (shiftedOutLeft (s.getV (shiftSource readsVy x y))) x
        (fun t => t.getV (shiftSource readsVy x y) <<< 1) := rfl

/-! Everything an instruction can change. -/

/-- What an instruction can make of a state, by the items it writes (R23): one case for each kind of instruction and
outcome, with what the claims need to know of the values written. -/
inductive Effect : Instr → State → State → Prop where
  /-- Registers alone (R170 to R185, R240). -/
  | registers {i : Instr} {s : State} {ds v} (hdests : registerDests i = some ds)
      (hregs : regsKept ds s (s.setRegs v)) : Effect i s (s.setRegs v)
  /-- RND (R191): one register, and a random byte taken. -/
  | random {x nn} {s : State} (b : Byte) :
      Effect (.rnd x nn) s
        ((s.setEnv { s.env with randoms := s.env.randoms.tail, drawn := s.env.drawn + 1 }).setV x b)
  /-- A jump or a skip (R153, R155 to R159). -/
  | jump {i : Instr} {s : State} {w} (hjump : pcOnly i = true)
      (hw : w = s.pc ∨ w = s.pc + 2 ∨ w.toNat ≤ 0x10FE) : Effect i s (s.setPc w)
  /-- RET (R152). -/
  | ret {s : State} (hlive : 0 < s.sp.val) :
      Effect .ret s { s with pc := s.stack[s.sp.val - 1]'(by omega), sp := ⟨s.sp.val - 1, by omega⟩ }
  /-- RET on an empty stack (R160). -/
  | retAbandoned {s : State} (hempty : s.sp.val = 0) : Effect .ret s s.abandonUnderflow
  /-- CALL (R154). -/
  | call {nnn} {s : State} (hroom : s.sp.val < 16) :
      Effect (.call nnn) s
        { s with pc := addrWord nnn, stack := s.stack.set s.sp.val s.pc, sp := ⟨s.sp.val + 1, by omega⟩ }
  /-- CALL on a full stack (R160). -/
  | callAbandoned {nnn} {s : State} (hfull : s.sp.val = 16) : Effect (.call nnn) s s.abandonOverflow
  /-- `I` alone (R200 to R202). -/
  | index {i : Instr} {s : State} (w : Word) (hindex : indexOnly i = true) : Effect i s (s.setI w)
  /-- LD DT, Vx (R241). -/
  | delay {x} {s : State} : Effect (.ldDtVx x) s (s.setDt (s.getV x))
  /-- LD ST, Vx (R242). -/
  | sound {x} {s : State} : Effect (.ldStVx x) s (s.setSt (s.getV x))
  /-- LD Vx, K (R246). -/
  | keyWait {x} {s : State} : Effect (.ldVxK x) s ((s.setKeyreg x).setRun .waitingForKey)
  /-- HALT0 (R123). -/
  | zeroWord {s : State} : Effect .halt0 s (s.raiseHalt .zeroWord)
  /-- CLS (R224). -/
  | clear {s : State} : Effect .cls s (s.setDisp Display.clear)
  /-- LD B and LD [I] (R203, R204). -/
  | store {i : Instr} {s : State} {bs} (hstore : isStore i = true) (hin : ¬ AccessFaults i s)
      (hlen : bs.length = accessSize i) : Effect i s (s.putBytes s.i.toNat bs)
  /-- LD Vx, [I] (R205). -/
  | load {x v} {s : State} (hin : ¬ AccessFaults (.ldVxMem x) s)
      (hregs : ∀ r : Reg, x.val < r.val → (s.setRegs v).getV r = s.getV r) : Effect (.ldVxMem x) s (s.setRegs v)
  /-- DRW (R225). -/
  | draw {x y n v d} {s : State} (hin : ¬ AccessFaults (.drw x y n) s) (hregs : regsKept [flagReg] s (s.setRegs v)) :
      Effect (.drw x y n) s ((s.setRegs v).setDisp d)
  /-- A data access that leaves memory (R66). -/
  | addrFault {i : Instr} {s : State} (hfault : AccessFaults i s) : Effect i s (s.raiseHalt .addrFault)

theorem regsKept_setV (s : State) (x : Reg) (b : Byte) : regsKept [x] s (s.setV x b) := (s.setV_frame x b).1

theorem regsKept_flagThen (s : State) (flag : Byte) (x : Reg) (result : State → Byte) :
    regsKept [x, flagReg] s (s.flagThen flag x result) := by
  intro r hr
  simp only [List.mem_cons, List.not_mem_nil, or_false, not_or] at hr
  rw [State.getV_flagThen, if_neg hr.1, if_neg hr.2]

theorem regsKept_add (s : State) (x : Reg) (a b : Byte) : regsKept [x, flagReg] s ((s.setV x a).setV flagReg b) := by
  intro r hr
  simp only [List.mem_cons, List.not_mem_nil, or_false, not_or] at hr
  rw [State.getV_setV_ne _ hr.2, State.getV_setV_ne _ hr.1]

theorem regsKept_drawAt (s : State) (xc yc : Nat) (rows : List Byte) :
    regsKept [flagReg] s (s.drawAt xc yc rows) := by
  intro r hr
  rw [State.getV_drawAt, if_neg (List.ne_of_not_mem_cons hr)]

theorem getV_putRegs_above (s : State) (bs : List Byte) (r : Reg) (h : bs.length ≤ r.val) :
    (s.setRegs (putRegs s.v 0 bs)).getV r = s.getV r := by
  rw [State.getV, State.setRegs_v, getElem_putRegs bs s.v 0 r.val r.isLt, dif_neg (by omega)]
  rfl

theorem effect_flagThen {flag : Byte} {x : Reg} {result : State → Byte} (hdests : registerDests i = some [x, flagReg]) :
    Effect i s (s.flagThen flag x result) := by
  rw [State.flagThen_eq]
  exact .registers hdests (regsKept_flagThen s flag x result)

theorem effect_skip (hjump : pcOnly i = true) (c : Bool) : Effect i s (s.skipIf c) := by
  rw [State.skipIf_eq]
  exact .jump hjump (by cases c <;> simp)

theorem effect_jp (nnn : Addr) : Effect (.jp nnn) s (s.setPc (addrWord nnn)) := by
  have := nnn.isLt
  exact .jump rfl (.inr (.inr (by rw [toNat_addrWord]; omega)))

theorem effect_jpV0 (nnn : Addr) : Effect (.jpV0 nnn) s (s.setPc (byteWord (s.getV 0) + addrWord nnn)) := by
  have := nnn.isLt
  have := (s.getV 0).isLt
  exact .jump rfl (.inr (.inr (by rw [toNat_byteWord_add_addrWord]; omega)))

theorem effect_of_ret (h : exec .ret s = .next t) : Effect .ret s t := by
  rcases exec_ret s with ⟨live, e⟩ | ⟨empty, e⟩ <;> cases e.symm.trans h
  · exact .ret live
  · exact .retAbandoned empty

theorem effect_of_call {nnn : Addr} (h : exec (.call nnn) s = .next t) : Effect (.call nnn) s t := by
  rcases exec_call s nnn with ⟨room, e⟩ | ⟨full, e⟩ <;> cases e.symm.trans h
  · exact .call room
  · exact .callAbandoned full

theorem effect_of_rnd {x : Reg} {nn : Byte} (h : exec (.rnd x nn) s = .next t) : Effect (.rnd x nn) s t := by
  obtain rfl : s.drawRandom.2.setV x (s.drawRandom.1 &&& nn) = t := Host.Outcome.next.inj h
  rw [s.drawRandom_eq.1]
  exact .random _

theorem effect_of_ldBVx {x : Reg} (h : exec (.ldBVx x) s = .next t) : Effect (.ldBVx x) s t := by
  rcases exec_ldBVx s x with ⟨inside, e⟩ | ⟨outside, e⟩ <;> cases e.symm.trans h
  · exact .store rfl (not_accessFaults_iff.mpr (.inr inside)) (length_bcdBytes _)
  · exact .addrFault (accessFaults_iff.mpr ⟨Nat.succ_ne_zero _, outside⟩)

theorem effect_of_ldMemVx {x : Reg} (h : exec (.ldMemVx x) s = .next t) : Effect (.ldMemVx x) s t := by
  rcases exec_ldMemVx s x with ⟨inside, e⟩ | ⟨outside, e⟩ <;> cases e.symm.trans h
  · exact .store rfl (not_accessFaults_iff.mpr (.inr inside)) (length_regsUpTo s x)
  · exact .addrFault (accessFaults_iff.mpr ⟨Nat.succ_ne_zero _, outside⟩)

theorem effect_of_ldVxMem {x : Reg} (h : exec (.ldVxMem x) s = .next t) : Effect (.ldVxMem x) s t := by
  rcases exec_ldVxMem s x with ⟨inside, e⟩ | ⟨outside, e⟩ <;> cases e.symm.trans h
  · exact .load (not_accessFaults_iff.mpr (.inr inside))
      fun r hr => getV_putRegs_above s _ r (by rw [Memory.length_bytesAt]; exact hr)
  · exact .addrFault (accessFaults_iff.mpr ⟨Nat.succ_ne_zero _, outside⟩)

theorem effect_of_drw {x y : Reg} {n : Nibble} (h : exec (.drw x y n) s = .next t) : Effect (.drw x y n) s t := by
  rcases exec_drw s x y n with ⟨inside, e⟩ | ⟨rows, outside, e⟩ <;> cases e.symm.trans h
  · rw [State.drawAt_eq]
    exact .draw (not_accessFaults_iff.mpr inside) (regsKept_drawAt s _ _ _)
  · exact .addrFault (accessFaults_iff.mpr ⟨rows, outside⟩)

/-- Every next state of `exec` is an effect of its instruction. -/
theorem effect_of_exec (h : exec i s = .next t) : Effect i s t := by
  cases i with
  | ret => exact effect_of_ret h
  | call => exact effect_of_call h
  | rnd => exact effect_of_rnd h
  | ldBVx => exact effect_of_ldBVx h
  | ldMemVx => exact effect_of_ldMemVx h
  | ldVxMem => exact effect_of_ldVxMem h
  | drw => exact effect_of_drw h
  | halt0 => cases h; exact .zeroWord
  | cls => cases h; exact .clear
  | jp nnn => cases h; exact effect_jp nnn
  | jpV0 nnn => cases h; exact effect_jpV0 nnn
  | seVxNn | sneVxNn | seVxVy | sneVxVy => cases h; exact effect_skip rfl _
  | ldVxNn | addVxNn | ldVxVy | orVxVy | andVxVy | xorVxVy | ldVxDt =>
    cases h; exact .registers rfl (regsKept_setV s _ _)
  | addVxVy => cases h; exact .registers rfl (regsKept_add s _ _ _)
  | subVxVy | subnVxVy => cases h; exact effect_flagThen rfl
  | shrVxVy => cases h; rw [shiftRight_eq]; exact effect_flagThen rfl
  | shlVxVy => cases h; rw [shiftLeft_eq]; exact effect_flagThen rfl
  | ldINnn | addIVx | ldFVx => cases h; exact .index _ rfl
  | ldDtVx => cases h; exact .delay
  | ldStVx => cases h; exact .sound
  | ldVxK => cases h; exact .keyWait

end Sys2Proof.Machine
end

section
/-! PROOF, shared by the statements on the whole machine: everything a step can be (`Transition`), said once, and what
an instruction does to each item, read off its `Effect`. -/

namespace Sys2Proof.Machine

open Sys2Proof.Claims

/-- What a step can make of a state: one case for each turn (R70, R72), those of the core by `RUN` and by what is
fetched (R120 to R127). -/
inductive Transition (s : State) : State → Prop where
  /-- R122. -/
  | fetchFault (hruns : CoreRuns s) (hpc : 0x0FFE < s.pc.toNat) :
      Transition s ((s.setEnv (envAfterCore s)).raiseHalt .fetchFault)
  /-- R121, R124. -/
  | instr {i t} (hruns : CoreRuns s) (hpc : s.pc.toNat ≤ 0x0FFE) (hfetch : Fetches s i)
      (heffect : Effect i (beforeExecute i (s.setEnv (envAfterCore s))) t) : Transition s (afterExecute t)
  /-- R125. -/
  | unknown (hruns : CoreRuns s) (hpc : s.pc.toNat ≤ 0x0FFE) :
      Transition s (s.setEnv (envAfterCore s)).advancePc.markUnknown.poll
  /-- R126. -/
  | waiting (hturn : s.nextTurn = .core) (hrun : s.run = .waitingForKey) :
      Transition s (s.setEnv (envAfterCore s)).poll
  /-- R127. -/
  | halted (hturn : s.nextTurn = .core) (hrun : s.run = .halted) : Transition s (s.withTurns s.env.turns.tail)
  /-- R248. -/
  | tick (hturn : s.nextTurn = .tick) : Transition s (s.withTurns s.env.turns.tail).tick
  /-- R300. -/
  | reset (hturn : s.nextTurn = .reset) : Transition s (s.withTurns s.env.turns.tail).resetTurn
  /-- R305, R306. -/
  | load {bytes} (hturn : s.nextTurn = .load bytes) (hfirst : s.env.started = false) :
      Transition s ((s.withTurns s.env.turns.tail).loadProgram bytes)

variable {s t : State} {i : Instr}

theorem fetches_of_fetchWord {w : Word} (hfetch : s.fetchWord = some w) (hdecode : decodeWord w = .ok i) :
    Fetches s i := by
  obtain ⟨hi, lo, hhi, hlo, rfl⟩ := (s.fetchWord_iff w).mp hfetch
  exact ⟨hi, lo, hhi, hlo, decode_pair_eq_ok.mpr hdecode⟩

/-- The poll of R125 always follows: an unknown word does not halt. -/
theorem afterExecute_markUnknown (hrun : s.run = .running) :
    afterExecute s.advancePc.markUnknown = s.advancePc.markUnknown.poll := by
  refine if_neg fun halted => ?_
  have still : s.run = .halted := halted
  rw [hrun] at still
  cases still

theorem transition_of_running (hruns : CoreRuns s) (h : step s = .next t) : Transition s t := by
  rw [step_of_running hruns] at h
  rcases stepRunning_cases (s.setEnv (envAfterCore s)) with
    ⟨outside, e⟩ | ⟨inside, w, hfetch, ⟨i, u, hdecode, hexec, e⟩ | ⟨_, hdecode, e⟩⟩ <;> cases e.symm.trans h
  · exact .fetchFault hruns outside
  · have hfetch' : s.fetchWord = some w := hfetch
    exact .instr hruns inside (fetches_of_fetchWord hfetch' hdecode) (effect_of_exec hexec)
  · have running : (s.setEnv (envAfterCore s)).run = .running := hruns.2
    rw [afterExecute_markUnknown running]
    exact .unknown hruns inside

theorem step_of_halted (hturn : s.nextTurn = .core) (hrun : s.run = .halted) :
    step s = .next (s.withTurns s.env.turns.tail) := by
  have halted : (s.withTurns s.env.turns.tail).run = .halted := hrun
  rw [step_of_core_turn hturn, coreTurn, halted, stepHalted]

/-- Every next state of a step is a transition. -/
theorem transition_of_step (h : step s = .next t) : Transition s t := by
  rcases step_cases s with ⟨hturn, _⟩ | ⟨hturn, e⟩ | ⟨hturn, e⟩ | ⟨_, _, _, e⟩ | ⟨_, hturn, first, e⟩
  · cases hrun : s.run with
    | running => exact transition_of_running ⟨hturn, hrun⟩ h
    | waitingForKey => cases (step_of_waiting hturn hrun).symm.trans h; exact .waiting hturn hrun
    | halted => cases (step_of_halted hturn hrun).symm.trans h; exact .halted hturn hrun
  · cases e.symm.trans h; exact .tick hturn
  · cases e.symm.trans h; exact .reset hturn
  · cases e.symm.trans h
  · cases e.symm.trans h; exact .load hturn first

/-! What an instruction does to each item. -/

theorem Effect.params (h : Effect i s t) : t.params = s.params := by
  cases h <;> rfl

theorem Effect.started (h : Effect i s t) : t.env.started = s.env.started := by
  cases h <;> rfl

theorem Effect.events (h : Effect i s t) : t.env.events = s.env.events := by
  cases h <;> rfl

theorem Effect.turns (h : Effect i s t) : t.env.turns = s.env.turns := by
  cases h <;> rfl

/-- DT is written by LD DT, Vx alone (R241). -/
theorem Effect.dt (h : Effect i s t) : t.dt = s.dt ∨ ∃ x, i = .ldDtVx x ∧ t.dt = s.getV x := by
  cases h with
  | delay => exact .inr ⟨_, rfl, rfl⟩
  | _ => exact .inl rfl

/-- ST is written by LD ST, Vx alone (R242). -/
theorem Effect.st (h : Effect i s t) : t.st = s.st ∨ ∃ x, i = .ldStVx x := by
  cases h with
  | sound => exact .inr ⟨_, rfl⟩
  | _ => exact .inl rfl

/-- Memory is written by the two stores alone (R23). -/
theorem Effect.mem (h : Effect i s t) : t.mem = s.mem ∨ isStore i = true := by
  cases h with
  | store hstore => exact .inr hstore
  | _ => exact .inl rfl

/-- The display is written by CLS and DRW alone (R29). -/
theorem Effect.disp (h : Effect i s t) : t.disp = s.disp ∨ isPainter i = true := by
  cases h with
  | clear | draw => exact .inr rfl
  | _ => exact .inl rfl

/-- RUN is written by LD Vx, K and the two halts alone (R40). -/
theorem Effect.run (h : Effect i s t) :
    (t.run = s.run ∧ t.haltCause = s.haltCause) ∨
    ((∃ x, i = .ldVxK x) ∧ t.run = .waitingForKey ∧ t.haltCause = s.haltCause) ∨
    (i = .halt0 ∧ t.run = .halted ∧ t.haltCause = .zeroWord) ∨
    (AccessFaults i s ∧ t.run = .halted ∧ t.haltCause = .addrFault) := by
  cases h with
  | keyWait => exact .inr (.inl ⟨⟨_, rfl⟩, rfl, rfl⟩)
  | zeroWord => exact .inr (.inr (.inl ⟨rfl, rfl, rfl⟩))
  | addrFault hfault => exact .inr (.inr (.inr ⟨hfault, rfl, rfl⟩))
  | _ => exact .inl ⟨rfl, rfl⟩

/-! The invariant (O56), item by item. -/

theorem Effect.memWf (h : Effect i s t) (hs : s.memWf) : t.memWf := by
  cases h with
  | store hstore hin hlen =>
    have size_pos : accessSize i ≠ 0 := by cases i <;> simp_all [isStore, accessSize]
    exact s.putBytes_memWf hs (by rw [hlen]; exact (not_accessFaults_iff.mp hin).resolve_left size_pos)
  | _ => exact hs

/-- RET takes `PC` from a live stack entry, JP V0 from at most `0xFF + 0xFFF`. -/
theorem Effect.pcBounded (h : Effect i s t) (hpc : s.pc.toNat ≤ 0x1000) (hstack : s.stackBounded) : t.pcBounded := by
  have kept : s.pc.toNat ≤ 0x10FE := by omega
  cases h with
  | jump _ hw =>
    rcases hw with rfl | rfl | hw
    · exact kept
    · show (s.pc + 2).toNat ≤ 0x10FE
      rw [BitVec.toNat_add, show (2 : Word).toNat = 2 from rfl]
      omega
    · exact hw
  | ret hlive =>
    have top : (s.stack[s.sp.val - 1]'(by omega)).toNat ≤ 0x1000 := hstack ⟨s.sp.val - 1, by omega⟩ (by simp; omega)
    show (s.stack[s.sp.val - 1]'(by omega)).toNat ≤ 0x10FE
    omega
  | call =>
    show (addrWord _).toNat ≤ 0x10FE
    rw [toNat_addrWord]
    omega
  | _ => exact kept

/-- CALL pushes the address after it (R154). -/
theorem Effect.stackBounded (h : Effect i s t) (hpc : s.pc.toNat ≤ 0x1000) (hstack : s.stackBounded) :
    t.stackBounded := by
  cases h with
  | ret hlive => exact fun k hk => hstack k (Nat.lt_of_lt_of_le hk (Nat.sub_le ..))
  | call hroom =>
    intro k hk
    show ((s.stack.set s.sp.val s.pc)[k.val]).toNat ≤ 0x1000
    have hk : k.val < s.sp.val + 1 := hk
    rw [Vector.getElem_set]
    split
    · exact hpc
    · exact hstack k (by omega)
  | _ => exact hstack

theorem haltCause_eq_none (hcause : s.causeAgrees) (hrun : s.run ≠ .halted) : s.haltCause = .none :=
  by_contra fun h => hrun (hcause.mpr h)

theorem Effect.causeAgrees (h : Effect i s t) (hrun : s.run ≠ .halted) (hcause : s.causeAgrees) : t.causeAgrees := by
  have none := haltCause_eq_none hcause hrun
  unfold State.causeAgrees at *
  rcases h.run with ⟨run, cause⟩ | ⟨_, run, cause⟩ | ⟨_, run, cause⟩ | ⟨_, run, cause⟩ <;> simp [run, cause, none, hrun]

/-- From a running core, `PC` just past the fetched word. -/
theorem Effect.inv (h : Effect i s t) (hs : s.Inv) (hrun : s.run ≠ .halted) (hpc : s.pc.toNat ≤ 0x1000)
    (hstarted : s.env.started = true) : t.Inv := by
  obtain ⟨hmem, hcause, -, hstack, -⟩ := hs
  exact ⟨h.memWf hmem, h.causeAgrees hrun hcause, h.pcBounded hpc hstack, h.stackBounded hpc hstack,
    fun _ => h.started.trans hstarted⟩

theorem State.causeAgrees_poll (hrun : s.run ≠ .halted) (hcause : s.causeAgrees) : s.poll.causeAgrees := by
  have none := haltCause_eq_none hcause hrun
  unfold State.causeAgrees at *
  rcases s.poll_cases with ⟨_, e⟩ | ⟨_, e⟩ | ⟨_, _, _, e⟩ | ⟨_, _, _, e⟩ <;>
    simp [e, State.dropEvent, State.deliverKey, none, hrun]

theorem State.inv_poll (hs : s.Inv) (hrun : s.run ≠ .halted) (hstarted : s.env.started = true) : s.poll.Inv := by
  obtain ⟨hmem, hcause, hpc, hstack, -⟩ := hs
  refine ⟨?_, State.causeAgrees_poll hrun hcause, ?_, ?_, fun _ => ?_⟩
  · rwa [State.memWf, State.poll_mem, State.poll_params]
  · rwa [State.pcBounded, State.poll_pc]
  · simpa [State.stackBounded] using hstack
  · rwa [State.poll_started]

theorem inv_afterExecute (hs : s.Inv) (hstarted : s.env.started = true) : (afterExecute s).Inv := by
  rcases afterExecute_cases s with ⟨_, e⟩ | ⟨hrun, e⟩ <;> rw [e]
  · exact hs
  · exact State.inv_poll hs hrun hstarted

/-- The state in which an instruction executes, at most 0x1000 by D4. -/
theorem beforeExecute_pc_le (i : Instr) (hpc : s.pc.toNat ≤ 0x0FFE) : (beforeExecute i s).pc.toNat ≤ 0x1000 := by
  rw [beforeExecute_eq, State.setPc_pc]
  split
  · omega
  · rw [BitVec.toNat_add, show (2 : Word).toNat = 2 from rfl]
    omega

/-- The bookkeeping of the outside and a change of `PC`, DT or `DIAG` keep the invariant as long as they respect its
bounds. -/
theorem State.Inv.congr (hs : s.Inv) (hpc : t.pcBounded) (hstarted : t.startedAgrees)
    (h : t = { s with pc := t.pc, dt := t.dt, diag := t.diag, env := t.env }) : t.Inv := by
  obtain ⟨hmem, hcause, -, hstack, -⟩ := hs
  rw [h] at hpc hstarted ⊢
  exact ⟨hmem, hcause, hpc, hstack, hstarted⟩

theorem inv_resetWith (p : Params) : (State.resetWith p).Inv := by
  refine ⟨Memory.reset_wf p, ?_, ?_, ?_, ?_⟩
  · simp [State.causeAgrees, State.resetWith]
  · simp [State.pcBounded, State.resetWith]
  · simp [State.stackBounded, State.resetWith]
  · simp [State.startedAgrees, State.resetWith]

end Sys2Proof.Machine
end

section
/-! PROOF of the statement of 00_scope.md section 4 and 10_state.md sections 3, 5 and 7 that every step keeps the
invariant, and of 10_state.md section 9 that reset meets it. -/

namespace Sys2Proof.Machine

open Sys2Proof.Claims

variable {s t : State} {i : Instr}

theorem Effect.inv_afterExecute (heffect : Effect i (beforeExecute i (s.setEnv (envAfterCore s))) t) (hs : s.Inv)
    (hrun : s.run = .running) (hpc : s.pc.toNat ≤ 0x0FFE) : (afterExecute t).Inv := by
  have pc_le := beforeExecute_pc_le (s := s.setEnv (envAfterCore s)) i hpc
  rw [beforeExecute_eq] at heffect pc_le
  refine Machine.inv_afterExecute (heffect.inv ?_ ?_ pc_le rfl) (heffect.started)
  · exact hs.congr (by unfold State.pcBounded; omega) (fun _ => rfl) rfl
  · simp [hrun]

theorem State.loadProgram_memWf (hs : s.memWf) (bytes : List Byte) : (s.loadProgram bytes).memWf := by
  rw [State.loadProgram_eq]
  refine Memory.putAll_wf _ hs ?_
  simp only [List.length_take, Config.programBase, Config.maxLoad, Config.memSize]
  omega

theorem State.inv_loadProgram (hs : s.Inv) (bytes : List Byte) : (s.loadProgram bytes).Inv := by
  obtain ⟨hmem, hcause, hpc, hstack, hstarted⟩ := hs
  have wf := State.loadProgram_memWf hmem bytes
  rw [State.loadProgram_eq] at wf ⊢
  exact ⟨wf, hcause, hpc, hstack, hstarted⟩

theorem State.inv_raiseHalt (hs : s.Inv) {c : HaltCause} (hc : c ≠ .none) (hstarted : s.env.started = true) :
    (s.raiseHalt c).Inv := by
  obtain ⟨hmem, -, hpc, hstack, -⟩ := hs
  exact ⟨hmem, iff_of_true rfl hc, hpc, hstack, fun _ => hstarted⟩

theorem Transition.inv (h : Transition s t) (hs : s.Inv) : t.Inv := by
  have ⟨_, _, hpc, _, hstarted⟩ := hs
  have booked : (s.setEnv (envAfterCore s)).Inv := hs.congr hpc (fun _ => rfl) rfl
  have taken : (s.withTurns s.env.turns.tail).Inv := hs.congr hpc hstarted rfl
  cases h with
  | fetchFault hruns hout => exact State.inv_raiseHalt booked (by decide) rfl
  | instr hruns hin hfetch heffect => exact heffect.inv_afterExecute hs hruns.2 hin
  | unknown hruns hin =>
    have pc_le := beforeExecute_pc_le (s := s) .cls hin
    refine State.inv_poll (booked.congr ?_ (fun _ => rfl) rfl) (fun halted => ?_) rfl
    · exact pc_le.trans (by decide)
    · cases hruns.2.symm.trans halted
  | waiting hturn hrun => exact State.inv_poll booked (by simp [hrun]) rfl
  | halted hturn hrun => exact taken
  | tick hturn =>
    rw [State.tick_eq]
    exact taken.congr hpc hstarted rfl
  | reset hturn =>
    have ⟨_, _, hpc, _, _⟩ := inv_resetWith s.params
    exact (inv_resetWith s.params).congr hpc (fun h => absurd rfl h) rfl
  | load hturn hfirst => exact State.inv_loadProgram taken _

theorem Transition.params (h : Transition s t) : t.params = s.params := by
  cases h with
  | instr _ _ _ heffect => rw [afterExecute_params, heffect.params, beforeExecute_eq]; rfl
  | unknown | waiting => rw [State.poll_params]; rfl
  | tick => rw [State.tick_eq]; rfl
  | load => rw [State.loadProgram_eq]; rfl
  | fetchFault | halted | reset => rfl

/-- Settles O56: by the case of `Transition`, with `Effect.inv` for the instruction and `State.inv_poll` for the poll
after it; a fetch that succeeds has `PC` at most 0x0FFE, from which both bounds come. -/
theorem stepKeepsInvariant : Obligations.StepKeepsInvariant := fun _ _ hs hstep =>
  ⟨(transition_of_step hstep).inv hs, (transition_of_step hstep).params⟩

/-- Settles O57: `inv_resetWith`, of which `State.reset` is the case of the default parameters. -/
theorem resetMeetsInvariant : Obligations.ResetMeetsInvariant :=
  ⟨inv_resetWith Params.default, inv_resetWith⟩

end Sys2Proof.Machine
end

section
/-! PROOF of the statements on what cannot be observed: DT but for LD Vx, DT (R264), ST (R31), and the stack entries at
or above `SP` (R28). One simulation serves the three: two states that differ in these items alone take steps to two
states that differ in them alone, and an item that was the same stays the same. -/

namespace Sys2Proof.Machine

open Sys2Proof.Claims

/-- The state with other values in the items that (almost) nothing reads. -/
def State.withHidden (s : State) (d b : Byte) (k : Vector Word 16) : State := { s with dt := d, st := b, stack := k }

/-- Two states that differ at most in DT, ST and the dead entries of the stack. -/
structure Alike (s s' : State) : Prop where
  eq_withHidden : s' = s.withHidden s'.dt s'.st s'.stack
  live : ∀ k : Fin 16, k.val < s.sp.val → s'.stack[k.val] = s.stack[k.val]

/-- `t` and `t'`, reached from `s` and `s'`, differ at most in the hidden items, and in none in which `s` and `s'` do
not. -/
structure Follows (s s' t t' : State) : Prop where
  alike : Alike t t'
  dt : s'.dt = s.dt → t'.dt = t.dt
  st : s'.st = s.st → t'.st = t.st
  stack : s'.stack = s.stack → t'.stack = t.stack

variable {s s' t t' u u' : State} {i : Instr}

theorem Follows.refl (h : Alike s s') : Follows s s' s s' := ⟨h, id, id, id⟩

theorem Follows.trans (h₁ : Follows s s' t t') (h₂ : Follows t t' u u') : Follows s s' u u' :=
  ⟨h₂.alike, h₂.dt ∘ h₁.dt, h₂.st ∘ h₁.st, h₂.stack ∘ h₁.stack⟩

@[simp] theorem State.withHidden_self (s : State) : s.withHidden s.dt s.st s.stack = s := rfl

theorem Follows.of_withHidden (h : Alike s s') (ht : t = t.withHidden s.dt s.st s.stack)
    (ht' : t' = t.withHidden s'.dt s'.st s'.stack) (hsp : t.sp = s.sp) : Follows s s' t t' := by
  have same : t.dt = s.dt ∧ t.st = s.st ∧ t.stack = s.stack := by rw [ht]; exact ⟨rfl, rfl, rfl⟩
  obtain ⟨sameDt, sameSt, sameStack⟩ := same
  subst ht'
  refine ⟨⟨rfl, fun k hk => ?_⟩, fun e => e.trans sameDt.symm, fun e => e.trans sameSt.symm,
    fun e => e.trans sameStack.symm⟩
  rw [sameStack]
  exact h.live k (hsp ▸ hk)

/-- An operation that neither reads nor writes a hidden item, nor `SP`, keeps two states alike. -/
theorem Follows.of_commutes {f : State → State} (hcomm : ∀ s d b k, f (s.withHidden d b k) = (f s).withHidden d b k)
    (hsp : (f s).sp = s.sp) (h : Alike s s') : Follows s s' (f s) (f s') :=
  .of_withHidden h (hcomm s s.dt s.st s.stack) ((congrArg f h.eq_withHidden).trans (hcomm ..)) hsp

theorem Follows.of_eq (h : t' = t) : Follows s s' t t' := by
  subst h
  exact ⟨⟨rfl, fun _ _ => rfl⟩, fun _ => rfl, fun _ => rfl, fun _ => rfl⟩

/-! The instructions that neither read nor write a hidden item. -/

/-- The instructions that name DT or ST, or use the call stack. -/
def namesHidden : Instr → Bool
  | .ret => true
  | .call _ => true
  | .ldVxDt _ => true
  | .ldDtVx _ => true
  | .ldStVx _ => true
  | _ => false

/-- The next state where there is one. -/
def mapNext (f : State → State) : Result → Result
  | .next t => .next (f t)
  | .fault r => .fault r
  | .refused r => .refused r

theorem State.skipIf_withHidden (c : Bool) (s : State) (d b : Byte) (k : Vector Word 16) :
    (s.withHidden d b k).skipIf c = (s.skipIf c).withHidden d b k := by
  cases c <;> rfl

@[simp] theorem State.dataAddr_withHidden (s : State) (d b : Byte) (k : Vector Word 16) :
    dataAddr (s.withHidden d b k) = dataAddr s := rfl

@[simp] theorem State.readBytes_withHidden (s : State) (d b : Byte) (k : Vector Word 16) :
    (s.withHidden d b k).readBytes = s.readBytes := rfl

theorem State.drawRandom_withHidden (s : State) (d b : Byte) (k : Vector Word 16) :
    (s.withHidden d b k).drawRandom = (s.drawRandom.1, s.drawRandom.2.withHidden d b k) := by
  cases h : s.env.randoms <;> simp [State.drawRandom, State.withHidden, h, State.setEnv]

theorem State.drawAt_withHidden (xc yc : Nat) (rows : List Byte) (s : State) (d b : Byte) (k : Vector Word 16) :
    (s.withHidden d b k).drawAt xc yc rows = (s.drawAt xc yc rows).withHidden d b k := by
  show (if (drawSprite s.disp rows xc yc).collided then _ else _) =
    (if (drawSprite s.disp rows xc yc).collided then _ else _ : State).withHidden d b k
  split <;> rfl

theorem State.writeBytes_withHidden (a : Nat) (bs : List Byte) (s : State) (d b : Byte) (k : Vector Word 16) :
    (s.withHidden d b k).writeBytes a bs = (s.writeBytes a bs).map (·.withHidden d b k) := by
  simp only [State.writeBytes, Option.map_map]
  rfl

theorem State.storeAtI_withHidden (bs : List Byte) (s : State) (d b : Byte) (k : Vector Word 16) :
    (s.withHidden d b k).storeAtI bs = (s.storeAtI bs).withHidden d b k := by
  simp only [State.storeAtI, State.dataAddr_withHidden, State.writeBytes_withHidden]
  cases s.writeBytes _ _ <;> rfl

theorem exec_withHidden (h : namesHidden i = false) (s : State) (d b : Byte) (k : Vector Word 16) :
    exec i (s.withHidden d b k) = mapNext (·.withHidden d b k) (exec i s) := by
  cases i with
  | ret | call | ldVxDt | ldDtVx | ldStVx => cases h
  | seVxNn | sneVxNn | seVxVy | sneVxVy => exact congrArg _ (State.skipIf_withHidden _ s d b k)
  | rnd => simp only [exec, execRnd, State.drawRandom_withHidden]; rfl
  | drw =>
    simp only [exec, execDrw, State.readBytes_withHidden, State.dataAddr_withHidden]
    cases s.readBytes _ _
    · rfl
    · exact congrArg _ (State.drawAt_withHidden _ _ _ s d b k)
  | ldBVx | ldMemVx => exact congrArg _ (State.storeAtI_withHidden _ s d b k)
  | ldVxMem =>
    simp only [exec, execLdVxMem, State.readBytes_withHidden, State.dataAddr_withHidden]
    cases s.readBytes _ _ <;> rfl
  | _ => rfl

theorem Effect.sp (h : Effect i s t) (hhidden : namesHidden i = false) : t.sp = s.sp := by
  cases h with
  | ret | call => cases hhidden
  | _ => rfl

/-! Two alike states under each instruction. -/

theorem follows_of_plain (h : Alike s s') (hhidden : namesHidden i = false) (hexec : exec i s = .next t) :
    ∃ t', exec i s' = .next t' ∧ Follows s s' t t' := by
  have self := exec_withHidden hhidden s s.dt s.st s.stack
  have other := exec_withHidden hhidden s s'.dt s'.st s'.stack
  rw [hexec] at self other
  rw [State.withHidden_self, hexec] at self
  rw [← h.eq_withHidden] at other
  exact ⟨_, other, .of_withHidden h (Host.Outcome.next.inj self) rfl ((effect_of_exec hexec).sp hhidden)⟩

theorem follows_of_ret (h : Alike s s') (hexec : exec .ret s = .next t) :
    ∃ t', exec .ret s' = .next t' ∧ Follows s s' t t' := by
  obtain ⟨d, b, k, rfl⟩ : ∃ d b k, s' = s.withHidden d b k := ⟨_, _, _, h.eq_withHidden⟩
  have live := h.live
  rcases exec_ret s with ⟨hlive, e⟩ | ⟨hempty, e⟩ <;> cases e.symm.trans hexec <;>
    rcases exec_ret (s.withHidden d b k) with ⟨hlive', e'⟩ | ⟨hempty', e'⟩
  · refine ⟨_, e', ⟨⟨?_, fun j hj => live j (Nat.lt_of_lt_of_le hj (Nat.sub_le ..))⟩, id, id, id⟩⟩
    have top := live ⟨s.sp.val - 1, by omega⟩ (Nat.sub_lt hlive Nat.one_pos)
    simpa [State.withHidden] using top
  · exact absurd hempty' hlive.ne'
  · exact absurd hempty hlive'.ne'
  · exact ⟨_, e', ⟨rfl, live⟩, id, id, id⟩

theorem follows_of_call {nnn : Addr} (h : Alike s s') (hexec : exec (.call nnn) s = .next t) :
    ∃ t', exec (.call nnn) s' = .next t' ∧ Follows s s' t t' := by
  obtain ⟨d, b, k, rfl⟩ : ∃ d b k, s' = s.withHidden d b k := ⟨_, _, _, h.eq_withHidden⟩
  have live := h.live
  rcases exec_call s nnn with ⟨hroom, e⟩ | ⟨hfull, e⟩ <;> cases e.symm.trans hexec <;>
    rcases exec_call (s.withHidden d b k) nnn with ⟨hroom', e'⟩ | ⟨hfull', e'⟩
  · refine ⟨_, e', ⟨⟨rfl, fun j hj => ?_⟩, id, id, fun same => ?_⟩⟩
    · show (k.set s.sp.val s.pc hroom)[j.val] = (s.stack.set s.sp.val s.pc hroom)[j.val]
      have hj : j.val < s.sp.val + 1 := hj
      rw [Vector.getElem_set, Vector.getElem_set]
      split
      · rfl
      · exact live j (by omega)
    · exact congrArg (fun v : Vector Word 16 => v.set s.sp.val s.pc hroom) same
  · exact absurd hfull' hroom.ne
  · exact absurd hfull hroom'.ne
  · exact ⟨_, e', ⟨rfl, live⟩, id, id, id⟩

theorem follows_of_ldVxDt {x : Reg} (h : Alike s s') (hdt : s'.dt = s.dt) (hexec : exec (.ldVxDt x) s = .next t) :
    ∃ t', exec (.ldVxDt x) s' = .next t' ∧ Follows s s' t t' := by
  obtain ⟨d, b, k, rfl⟩ : ∃ d b k, s' = s.withHidden d b k := ⟨_, _, _, h.eq_withHidden⟩
  obtain rfl : d = s.dt := hdt
  cases hexec
  exact ⟨_, rfl, .of_withHidden h rfl rfl rfl⟩

theorem follows_of_setDt {a a' : Byte} (h : Alike s s') (ha : s'.dt = s.dt → a' = a) :
    Follows s s' (s.setDt a) (s'.setDt a') := by
  obtain ⟨d, b, k, rfl⟩ : ∃ d b k, s' = s.withHidden d b k := ⟨_, _, _, h.eq_withHidden⟩
  exact ⟨⟨rfl, h.live⟩, ha, id, id⟩

theorem follows_of_ldDtVx {x : Reg} (h : Alike s s') (hexec : exec (.ldDtVx x) s = .next t) :
    ∃ t', exec (.ldDtVx x) s' = .next t' ∧ Follows s s' t t' := by
  obtain ⟨d, b, k, rfl⟩ : ∃ d b k, s' = s.withHidden d b k := ⟨_, _, _, h.eq_withHidden⟩
  cases hexec
  exact ⟨_, rfl, follows_of_setDt h fun _ => rfl⟩

theorem follows_of_ldStVx {x : Reg} (h : Alike s s') (hexec : exec (.ldStVx x) s = .next t) :
    ∃ t', exec (.ldStVx x) s' = .next t' ∧ Follows s s' t t' := by
  obtain ⟨d, b, k, rfl⟩ : ∃ d b k, s' = s.withHidden d b k := ⟨_, _, _, h.eq_withHidden⟩
  cases hexec
  exact ⟨_, rfl, ⟨rfl, h.live⟩, id, fun _ => rfl, id⟩

/-- LD Vx, DT is the one instruction that could tell two alike states apart. -/
theorem follows_of_exec (h : Alike s s') (hdt : s'.dt = s.dt ∨ ∀ x, i ≠ .ldVxDt x) (hexec : exec i s = .next t) :
    ∃ t', exec i s' = .next t' ∧ Follows s s' t t' := by
  cases hhidden : namesHidden i with
  | false => exact follows_of_plain h hhidden hexec
  | true =>
    cases i with
    | ret => exact follows_of_ret h hexec
    | call => exact follows_of_call h hexec
    | ldVxDt x =>
      have same : s'.dt = s.dt := hdt.resolve_right fun ne => ne x rfl
      exact follows_of_ldVxDt h same hexec
    | ldDtVx => exact follows_of_ldDtVx h hexec
    | ldStVx => exact follows_of_ldStVx h hexec
    | _ => cases hhidden

/-! Two alike states under each part of a step. -/

theorem State.onEvent_withHidden (e : Event) (s : State) (d b : Byte) (k : Vector Word 16) :
    (s.withHidden d b k).onEvent e = (s.onEvent e).withHidden d b k := by
  cases e with
  | none | quit => rfl
  | keyboard key =>
    show (if s.run = .waitingForKey then _ else _) = (if s.run = .waitingForKey then _ else _ : State).withHidden d b k
    split <;> rfl

theorem State.poll_withHidden (s : State) (d b : Byte) (k : Vector Word 16) :
    (s.withHidden d b k).poll = s.poll.withHidden d b k :=
  s.dropEvent.onEvent_withHidden s.nextEvent d b k

theorem follows_of_poll (h : Alike s s') : Follows s s' s.poll s'.poll :=
  .of_commutes State.poll_withHidden (State.poll_sp s) h

theorem follows_of_afterExecute (h : Alike s s') : Follows s s' (afterExecute s) (afterExecute s') := by
  have run : s'.run = s.run := by rw [h.eq_withHidden]; rfl
  simp only [afterExecute, run]
  split
  · exact .refl h
  · exact follows_of_poll h

theorem follows_of_beforeExecute (i : Instr) (h : Alike s s') :
    Follows s s' (beforeExecute i s) (beforeExecute i s') := by
  refine .of_commutes (fun s d b k => ?_) ?_ h
  · rw [beforeExecute_eq, beforeExecute_eq]; rfl
  · rw [beforeExecute_eq]; rfl

theorem follows_of_runInstr (h : Alike s s') (hdt : s'.dt = s.dt ∨ ∀ x, i ≠ .ldVxDt x)
    (hrun : runInstr i s = .next t) : ∃ t', runInstr i s' = .next t' ∧ Follows s s' t t' := by
  have before := follows_of_beforeExecute i h
  obtain ⟨u, hexec⟩ := exec_total (beforeExecute i s) i
  obtain ⟨u', hexec', hu⟩ := follows_of_exec before.alike (hdt.imp_left before.dt) hexec
  cases (runInstr_of_exec hexec).symm.trans hrun
  exact ⟨_, runInstr_of_exec hexec', (before.trans hu).trans (follows_of_afterExecute hu.alike)⟩

theorem follows_of_runUnknown (h : Alike s s') (hrun : runUnknown s = .next t) :
    ∃ t', runUnknown s' = .next t' ∧ Follows s s' t t' := by
  have marked : Follows s s' s.advancePc.markUnknown s'.advancePc.markUnknown :=
    .of_commutes (f := fun s => s.advancePc.markUnknown) (fun _ _ _ _ => rfl) rfl h
  cases hrun
  exact ⟨_, rfl, marked.trans (follows_of_afterExecute marked.alike)⟩

theorem follows_of_stepRunning (h : Alike s s') (hdt : s'.dt = s.dt ∨ ¬ ∃ x, Fetches s (.ldVxDt x))
    (hstep : stepRunning s = .next t) : ∃ t', stepRunning s' = .next t' ∧ Follows s s' t t' := by
  have fetch : s'.fetchWord = s.fetchWord := by rw [h.eq_withHidden]; rfl
  unfold stepRunning at hstep ⊢
  rw [fetch]
  cases hfetch : s.fetchWord with
  | none =>
    rw [hfetch] at hstep
    cases hstep
    exact ⟨_, rfl, .of_commutes (f := (·.raiseHalt .fetchFault)) (fun _ _ _ _ => rfl) rfl h⟩
  | some w =>
    simp only [hfetch, runWord] at hstep ⊢
    cases hdecode : decodeWord w with
    | error => rw [hdecode] at hstep; exact follows_of_runUnknown h hstep
    | ok i =>
      rw [hdecode] at hstep
      refine follows_of_runInstr h (hdt.imp_right fun hno x hi => ?_) hstep
      exact hno ⟨x, fetches_of_fetchWord hfetch (hi ▸ hdecode)⟩

theorem follows_of_tick (h : Alike s s') : Follows s s' s.tick s'.tick := by
  have ticked : Follows s s' (s.setDt s.tick.dt) (s'.setDt s'.tick.dt) :=
    follows_of_setDt h fun e => BitVec.eq_of_toNat_eq (by rw [State.tick_dt, State.tick_dt, e])
  rwa [← State.tick_eq, ← State.tick_eq] at ticked

theorem follows_of_loadTurn {bytes : List Byte} (h : Alike s s') (hturn : loadTurn bytes s = .next t) :
    ∃ t', loadTurn bytes s' = .next t' ∧ Follows s s' t t' := by
  have env : s'.env = s.env := by rw [h.eq_withHidden]; rfl
  simp only [loadTurn, env] at hturn ⊢
  split at hturn
  · cases hturn
  · next first =>
    cases hturn
    refine ⟨_, if_neg first, .of_commutes (f := (·.loadProgram bytes)) (fun s d b k => ?_) ?_ h⟩
    · simp only [State.loadProgram_eq]; rfl
    · simp only [State.loadProgram_eq]

theorem follows_of_coreTurn (h : Alike s s')
    (hdt : s'.dt = s.dt ∨ ¬ (s.run = .running ∧ ∃ x, Fetches s (.ldVxDt x))) (hturn : coreTurn s = .next t) :
    ∃ t', coreTurn s' = .next t' ∧ Follows s s' t t' := by
  have run : s'.run = s.run := by rw [h.eq_withHidden]; rfl
  have marked : Follows s s' s.markStarted s'.markStarted :=
    .of_commutes (f := State.markStarted) (fun _ _ _ _ => rfl) rfl h
  unfold coreTurn at hturn ⊢
  rw [run]
  cases hrun : s.run with
  | running =>
    simp only [hrun] at hturn ⊢
    have hdt' : s'.markStarted.dt = s.markStarted.dt ∨ ¬ ∃ x, Fetches s.markStarted (.ldVxDt x) :=
      hdt.imp_right fun hno hfetch => hno ⟨hrun, hfetch⟩
    obtain ⟨t', hstep, ht⟩ := follows_of_stepRunning marked.alike hdt' hturn
    exact ⟨t', hstep, marked.trans ht⟩
  | waitingForKey =>
    rw [hrun] at hturn
    cases hturn
    exact ⟨_, rfl, marked.trans (follows_of_poll marked.alike)⟩
  | halted =>
    rw [hrun] at hturn
    cases hturn
    exact ⟨_, rfl, .refl h⟩

/-- The simulation: a step from two alike states gives two alike states. -/
theorem follows_of_step (h : Alike s s') (hdt : s'.dt = s.dt ∨ ¬ (CoreRuns s ∧ ∃ x, Fetches s (.ldVxDt x)))
    (hstep : step s = .next t) : ∃ t', step s' = .next t' ∧ Follows s s' t t' := by
  have env : s'.env = s.env := by rw [h.eq_withHidden]; rfl
  have taken : Follows s s' (s.withTurns s.env.turns.tail) (s'.withTurns s.env.turns.tail) :=
    .of_commutes (f := (·.withTurns s.env.turns.tail)) (fun _ _ _ _ => rfl) rfl h
  have turn : s'.nextTurn = s.nextTurn := by rw [State.nextTurn, env, State.nextTurn]
  unfold step machineStep at hstep ⊢
  rw [env, turn]
  cases hturn : s.nextTurn with
  | core =>
    rw [hturn] at hstep
    obtain ⟨t', hcore, ht⟩ := follows_of_coreTurn taken.alike
      (hdt.imp taken.dt fun hno hldt => hno ⟨⟨hturn, hldt.1⟩, hldt.2⟩) hstep
    exact ⟨t', hcore, taken.trans ht⟩
  | tick =>
    rw [hturn] at hstep
    cases hstep
    exact ⟨_, rfl, taken.trans (follows_of_tick taken.alike)⟩
  | reset =>
    rw [hturn] at hstep
    cases hstep
    refine ⟨_, rfl, .of_eq ?_⟩
    rw [taken.alike.eq_withHidden]
    rfl
  | load bytes =>
    rw [hturn] at hstep
    obtain ⟨t', hload, ht⟩ := follows_of_loadTurn taken.alike hstep
    exact ⟨t', hload, taken.trans ht⟩

theorem alike_of_hidden (d b : Byte) : Alike s { s with dt := d, st := b } := ⟨rfl, fun _ _ => rfl⟩

/-- Settles O58: two states that differ in DT alone are alike, so the simulation takes their steps to alike states, in
which ST and the stack, the same before, are the same. -/
theorem delayTimerSeenOnlyByLdVxDt : Obligations.DelayTimerSeenOnlyByLdVxDt := by
  intro s t d hno hstep
  obtain ⟨t', hstep', ht⟩ := follows_of_step (alike_of_hidden d s.st) (.inr hno) hstep
  refine ⟨t'.dt, hstep'.trans (congrArg _ ?_)⟩
  rw [ht.alike.eq_withHidden, ht.st rfl, ht.stack rfl]
  rfl

/-- Settles O59: as O58, from two states that differ in ST alone; the same DT is seen the same. -/
theorem soundRegisterIsNeverRead : Obligations.SoundRegisterIsNeverRead := by
  intro s t b hstep
  obtain ⟨t', hstep', ht⟩ := follows_of_step (alike_of_hidden s.dt b) (.inl rfl) hstep
  refine ⟨t'.st, hstep'.trans (congrArg _ ?_)⟩
  rw [ht.alike.eq_withHidden, ht.dt rfl, ht.stack rfl]
  rfl

/-- Settles O60: as O58, from two states that differ in dead stack entries alone; the live ones stay the same. -/
theorem deadStackEntriesAreUnobservable : Obligations.DeadStackEntriesAreUnobservable := by
  rintro s s' t ⟨hs', hlive⟩ hstep
  have dt : s'.dt = s.dt := by rw [hs']
  have st : s'.st = s.st := by rw [hs']
  have alike : Alike s s' := ⟨by rw [dt, st]; exact hs', hlive⟩
  obtain ⟨t', hstep', ht⟩ := follows_of_step alike (.inl dt) hstep
  refine ⟨t', hstep', ?_, ht.alike.live⟩
  conv_lhs => rw [ht.alike.eq_withHidden, ht.dt dt, ht.st st]
  rfl

end Sys2Proof.Machine
end

section
/-! PROOF of the statements of 30_encoding.md on words: a word is the pack of its own fields, so the decoder drops no
bit (R102); the decoder against the match and mask of the table (R94, R96); the unknown words by arithmetic (R100). -/

namespace Sys2Proof

/-! A word from its fields, by the formats of R91. -/

theorem fieldX_val (w : Word) : (fieldX w).val = w.toNat / 0x100 % 16 := lowNibbleOfHighByte_toNat w

theorem fieldY_val (w : Word) : (fieldY w).val = w.toNat / 0x10 % 16 := highNibbleOfLowByte_toNat w

theorem packNnn_fields {w : Word} {op : BitVec 4} (hop : (highNibble w).toNat = op.toNat) :
    packNnn op (twelveBits w) = w := by
  rw [highNibble_toNat] at hop
  apply BitVec.eq_of_toNat_eq
  rw [toNat_packNnn, twelveBits_toNat]
  omega

theorem packXnn_fields {w : Word} {op : BitVec 4} (hop : (highNibble w).toNat = op.toNat) :
    packXnn op (fieldX w) (lowByte w) = w := by
  rw [highNibble_toNat] at hop
  apply BitVec.eq_of_toNat_eq
  rw [toNat_packXnn, fieldX_val, lowByte_toNat]
  omega

theorem packXyn_fields {w : Word} {op : BitVec 4} (hop : (highNibble w).toNat = op.toNat) :
    packXyn op (fieldX w) (fieldY w) (lowNibbleOfLowByte w) = w := by
  rw [highNibble_toNat] at hop
  apply BitVec.eq_of_toNat_eq
  rw [toNat_packXyn, fieldX_val, fieldY_val, lowNibbleOfLowByte_toNat]
  omega

theorem packXnn_of_lowByte {w : Word} {op : BitVec 4} {nn : Byte} (hop : (highNibble w).toNat = op.toNat)
    (hnn : lowByte w = nn) : packXnn op (fieldX w) nn = w := by
  rw [← hnn, packXnn_fields hop]

theorem packXyn_of_nibble {w : Word} {op n : BitVec 4} (hop : (highNibble w).toNat = op.toNat)
    (hn : (lowNibbleOfLowByte w).toNat = n.toNat) : packXyn op (fieldX w) (fieldY w) n = w := by
  rw [← BitVec.eq_of_toNat_eq hn, packXyn_fields hop]

/-! The secondary selections of R94, backwards. -/

theorem encode_of_decodeWhole {w : Word} {i : Instr} (h : decodeWhole w = .ok i) : encode i = w := by
  unfold decodeWhole at h
  split at h
  · next hw => cases h; exact hw.symm
  · split at h
    · next hw => cases h; exact hw.symm
    · cases h

theorem encode_of_decodeAlu {w : Word} {i : Instr} (hop : (highNibble w).toNat = 0x8) (h : decodeAlu w = .ok i) :
    encode i = w := by
  unfold decodeAlu at h
  split at h <;> cases h <;> exact packXyn_of_nibble hop ‹_›

theorem encode_of_decodeMisc {w : Word} {i : Instr} (hop : (highNibble w).toNat = 0xF) (h : decodeMisc w = .ok i) :
    encode i = w := by
  unfold decodeMisc at h
  iterate 9
    split at h
    · next hnn => cases h; exact packXnn_of_lowByte hop hnn
  cases h

/-- R102, by the selections of R94. -/
theorem encode_of_decodeWord {w : Word} {i : Instr} (h : decodeWord w = .ok i) : encode i = w := by
  unfold decodeWord at h
  split at h
  · next hw => cases h; exact hw.symm
  · split at h
    case h_1 => exact encode_of_decodeWhole h
    case h_9 hop => exact encode_of_decodeAlu hop h
    case h_15 hop => exact encode_of_decodeMisc hop h
    case h_6 hop | h_10 hop =>
      split at h
      · next hn => cases h; exact packXyn_of_nibble hop (congrArg BitVec.toNat hn)
      · cases h
    case h_2 hop | h_3 hop | h_11 hop | h_12 hop => cases h; exact packNnn_fields hop
    case h_4 hop | h_5 hop | h_7 hop | h_8 hop | h_13 hop => cases h; exact packXnn_fields hop
    case h_14 hop => cases h; exact packXyn_fields hop
    case h_16 => cases h

/-- Settles O2: `encode_of_decodeWord`, by the selections of R94, each of which fixes all bits that the fields leave. -/
theorem encodeInvertsDecode : Obligations.EncodeInvertsDecode := fun _ _ => encode_of_decodeWord

/-! The table (R96). -/

theorem Laws.SelectsRow.statement (i : Instr) : Laws.SelectsRow.Statement i := by
  cases i with
  | halt0 => exact halt0
  | cls => exact cls
  | ret => exact ret
  | jp => exact jp _
  | call => exact call _
  | seVxNn => exact seVxNn _ _
  | sneVxNn => exact sneVxNn _ _
  | seVxVy => exact seVxVy _ _
  | ldVxNn => exact ldVxNn _ _
  | addVxNn => exact addVxNn _ _
  | ldVxVy => exact ldVxVy _ _
  | orVxVy => exact orVxVy _ _
  | andVxVy => exact andVxVy _ _
  | xorVxVy => exact xorVxVy _ _
  | addVxVy => exact addVxVy _ _
  | subVxVy => exact subVxVy _ _
  | shrVxVy => exact shrVxVy _ _
  | subnVxVy => exact subnVxVy _ _
  | shlVxVy => exact shlVxVy _ _
  | sneVxVy => exact sneVxVy _ _
  | ldINnn => exact ldINnn _
  | jpV0 => exact jpV0 _
  | rnd => exact rnd _ _
  | drw => exact drw _ _ _
  | ldVxDt => exact ldVxDt _
  | ldVxK => exact ldVxK _
  | ldDtVx => exact ldDtVx _
  | ldStVx => exact ldStVx _
  | addIVx => exact addIVx _
  | ldFVx => exact ldFVx _
  | ldBVx => exact ldBVx _
  | ldMemVx => exact ldMemVx _
  | ldVxMem => exact ldVxMem _

theorem row_mem_opcodeTable (i : Instr) : i.row ∈ opcodeTable := by
  cases i <;> simp [opcodeTable, Instr.row]

/-- A word that two rows select shows that they agree in every bit both fix. -/
theorem disjoint_eq_false {r q : OpcodeRow} {w : Word} (hr : r.selectedBy w = true) (hq : q.selectedBy w = true) :
    r.disjoint q = false := by
  simp only [OpcodeRow.selectedBy, beq_iff_eq] at hr hq
  have agree : (r.pattern ^^^ q.pattern) &&& r.mask &&& q.mask = 0 := by
    rw [← hr, ← hq]
    apply BitVec.eq_of_getLsbD_eq
    intro k _
    simp only [BitVec.getLsbD_and, BitVec.getLsbD_xor]
    cases w.getLsbD k <;> cases r.mask.getLsbD k <;> cases q.mask.getLsbD k <;> simp
  simp [OpcodeRow.disjoint, agree]

/-- In a well-formed table a word selects at most one row. -/
theorem eq_of_selectedBy {w : Word} : ∀ {table : List OpcodeRow}, tableWellFormed table = true →
    ∀ {r q : OpcodeRow}, r ∈ table → q ∈ table → r.selectedBy w = true → q.selectedBy w = true → r = q
  | [], _, _, _, hr, _, _, _ => nomatch hr
  | head :: rows, hwf, r, q, hr, hq, hrw, hqw => by
    simp only [tableWellFormed, Bool.and_eq_true, List.all_eq_true] at hwf
    obtain ⟨⟨_, hdisjoint⟩, htail⟩ := hwf
    have clash : ∀ p ∈ rows, head.selectedBy w = true → ¬ p.selectedBy w = true := fun p hp hhead hpw => by
      have differ := hdisjoint p hp
      rw [disjoint_eq_false hhead hpw] at differ
      cases differ
    rcases List.mem_cons.mp hr with rfl | hr' <;> rcases List.mem_cons.mp hq with rfl | hq'
    · rfl
    · exact absurd hqw (clash q hq' hrw)
    · exact absurd hrw (clash r hr' hqw)
    · exact eq_of_selectedBy htail hr' hq' hrw hqw

/-- A field that the mask fixes is the pattern's. -/
theorem extractLsb'_of_and_eq {w mask pattern : Word} {start len : Nat} (h : w &&& mask = pattern)
    (hmask : mask.extractLsb' start len = BitVec.allOnes len) :
    w.extractLsb' start len = pattern.extractLsb' start len := by
  rw [← h, BitVec.extractLsb'_and, hmask, BitVec.and_allOnes]

theorem decodeWord_of_fullMask {w : Word} {i : Instr} (h : w &&& BitVec.allOnes 16 = encode i) :
    decodeWord w = .ok i := by
  rw [← BitVec.and_allOnes (x := w), h, decodeWord_encode]

/-- A word that selects a row decodes: the fields that the row fixes are those the dispatch of R94 goes by. -/
theorem decodeWord_of_selectedBy {w : Word} {i : Instr} (h : i.row.selectedBy w = true) :
    ∃ j, decodeWord w = .ok j := by
  have hsel : w &&& i.row.mask = i.row.pattern := beq_iff_eq.mp h
  by_cases hw : w = 0#16
  · exact ⟨.halt0, by rw [hw]; rfl⟩
  cases i with
  | halt0 => exact ⟨.halt0, decodeWord_of_fullMask hsel⟩
  | cls => exact ⟨.cls, decodeWord_of_fullMask hsel⟩
  | ret => exact ⟨.ret, decodeWord_of_fullMask hsel⟩
  | jp | call | seVxNn | sneVxNn | ldVxNn | addVxNn | ldINnn | jpV0 | rnd | drw =>
    simp only [Instr.row] at hsel
    have hop := extractLsb'_of_and_eq (start := 12) (len := 4) hsel (by simp)
    simp [decodeWord, hw, highNibble, hop]
  | seVxVy | sneVxVy | ldVxVy | orVxVy | andVxVy | xorVxVy | addVxVy | subVxVy | shrVxVy | subnVxVy | shlVxVy =>
    simp only [Instr.row] at hsel
    have hop := extractLsb'_of_and_eq (start := 12) (len := 4) hsel (by simp)
    have hn := extractLsb'_of_and_eq (start := 0) (len := 4) hsel (by simp)
    simp [decodeWord, hw, highNibble, hop, decodeAlu, lowNibbleOfLowByte, hn]
  | ldVxDt | ldVxK | ldDtVx | ldStVx | addIVx | ldFVx | ldBVx | ldMemVx | ldVxMem =>
    simp only [Instr.row] at hsel
    have hop := extractLsb'_of_and_eq (start := 12) (len := 4) hsel (by simp)
    have hnn := extractLsb'_of_and_eq (start := 0) (len := 8) hsel (by simp)
    simp [decodeWord, hw, highNibble, hop, decodeMisc, lowByte, hnn]

/-- Settles O3: the row of the instruction by `encode_of_decodeWord` and the lemmas of `SelectsRow`, no other since the
table is well formed, and no row for a refused word, since a word that selects a row decodes. -/
theorem decoderFollowsOpcodeTable : Obligations.DecoderFollowsOpcodeTable := by
  refine fun w => ⟨fun i h => ?_, fun e h => ⟨Machine.decodeWord_error h, fun r hr => ?_⟩⟩
  · obtain ⟨selected, -⟩ := Laws.SelectsRow.statement i
    rw [encode_of_decodeWord h] at selected
    exact ⟨selected, fun r hr hrw => eq_of_selectedBy (by decide) hr (row_mem_opcodeTable i) hrw selected⟩
  · obtain ⟨i, -, rfl⟩ := List.mem_map.mp hr
    refine Bool.eq_false_iff.mpr fun selected => ?_
    obtain ⟨j, hj⟩ := decodeWord_of_selectedBy selected
    cases hj.symm.trans h

/-! The unknown words (R100). -/

theorem decodeWhole_error_iff (w : Word) :
    decodeWhole w = .error (.unknownOpcode w) ↔ w.toNat ≠ 0x00E0 ∧ w.toNat ≠ 0x00EE := by
  simp only [decodeWhole, ← BitVec.toNat_inj (x := w), ite_eq_iff]
  simp

theorem decodeAlu_error_iff (w : Word) :
    decodeAlu w = .error (.unknownOpcode w) ↔ w.toNat % 16 ∈ [0x8, 0x9, 0xA, 0xB, 0xC, 0xD, 0xF] := by
  unfold decodeAlu
  rw [lowNibbleOfLowByte_toNat]
  have : w.toNat % 16 < 16 := Nat.mod_lt _ (by decide)
  generalize w.toNat % 16 = n at *
  interval_cases n <;> simp

theorem decodeMisc_error_iff (w : Word) :
    decodeMisc w = .error (.unknownOpcode w) ↔
      w.toNat % 256 ∉ [0x07, 0x0A, 0x15, 0x18, 0x1E, 0x29, 0x33, 0x55, 0x65] := by
  simp only [decodeMisc, ← BitVec.toNat_inj (x := lowByte w), lowByte_toNat, ite_eq_iff]
  simp

theorem lowNibbleOfLowByte_eq_zero_iff (w : Word) : lowNibbleOfLowByte w = 0#4 ↔ w.toNat % 16 = 0 := by
  rw [← BitVec.toNat_inj, lowNibbleOfLowByte_toNat]
  rfl

/-- Settles O4: one case for each primary opcode, the families with a secondary selection by the lemma on theirs. -/
theorem unknownWordsAreThoseListed : Obligations.UnknownWordsAreThoseListed := by
  intro w
  have hlt : w.toNat / 0x1000 < 16 := Nat.div_lt_of_lt_mul w.isLt
  by_cases hw : w = 0x0000
  · subst hw
    simp [decodeWord]
  · have nonzero : w.toNat ≠ 0 := fun h => hw (BitVec.eq_of_toNat_eq h)
    rw [decodeWord, if_neg hw, highNibble_toNat]
    generalize w.toNat / 0x1000 = op at *
    interval_cases op <;>
      simp [nonzero, decodeWhole_error_iff, lowNibbleOfLowByte_eq_zero_iff, decodeAlu_error_iff, decodeMisc_error_iff]

/-- Settles O5: the decoder evaluated on the nine words. -/
theorem writtenOutWordsDecode : Obligations.WrittenOutWordsDecode := by
  unfold Obligations.WrittenOutWordsDecode
  decide

end Sys2Proof
end

section
/-! PROOF of the statements of 40_fetch_decode_step.md and 20_memory.md on one step of the core: the fetch (R62, R122),
the executed, the zero and the unknown word (R121 to R125), the address fault (R66), what has no next state (R305). -/

namespace Sys2Proof.Machine

open Sys2Proof.Claims

variable {s t : State} {i : Instr}

/-- A word by the arithmetic of its two bytes. -/
theorem eq_wordOf_iff (w : Word) (hi lo : Byte) : w = wordOf hi lo ↔ w.toNat = 256 * hi.toNat + lo.toNat := by
  rw [← BitVec.toNat_inj, wordOf, toNat_append_eq_add]
  exact Iff.rfl

/-- Settles O8: `State.fetchWord_iff`, with the word of two bytes as arithmetic. -/
theorem fetchIsBigEndian : Obligations.FetchIsBigEndian := by
  intro s w
  simp only [State.fetchWord_iff, eq_wordOf_iff]

/-- Settles O7: `step_of_fetches`; the model's `runInstr` is the statement's match, its `beforeExecute` and
`afterExecute` the two conditions. -/
theorem stepRunsDecodedInstruction : Obligations.StepRunsDecodedInstruction := by
  intro s i hruns hfetch
  exact step_of_fetches hruns hfetch

/-- Settles O9: of the two outcomes of a fetch, `PC` above 0x0FFE leaves R122's. -/
theorem fetchOutOfRangeHalts : Obligations.FetchOutOfRangeHalts := by
  intro s hruns hpc
  rw [step_of_running hruns]
  rcases State.fetchWord_eq (s.setEnv (envAfterCore s)) with ⟨_, inside⟩ | ⟨hnone, _⟩
  · exact absurd hpc (Nat.not_lt_of_le inside)
  · rw [stepRunning, hnone]
    rfl

theorem fetches_halt0 (hhi : s.readByte s.pc.toNat = some 0) (hlo : s.readByte (s.pc.toNat + 1) = some 0) :
    Fetches s .halt0 :=
  ⟨0, 0, hhi, hlo, rfl⟩

/-- Settles O10: the two zero bytes are fetched as HALT0, which halts and so takes no event. -/
theorem zeroWordHalts : Obligations.ZeroWordHalts :=
  ⟨fun _ hruns hhi hlo => step_of_fetches hruns (fetches_halt0 hhi hlo), fun _ => rfl⟩

theorem decode_pair_eq_error {hi lo : Byte} {e : Undecodable} (h : decode [hi, lo] = .error e) :
    decodeWord (wordOf hi lo) = .error e := by
  cases hdecode : decodeWord (wordOf hi lo) <;> simp_all [decode]

theorem stepRunning_of_fetchesUnknown (h : FetchesUnknown s) : stepRunning s = runUnknown s := by
  obtain ⟨hi, lo, hhi, hlo, hdecode⟩ := h
  have hfetch : s.fetchWord = some (wordOf hi lo) := (s.fetchWord_iff _).mpr ⟨hi, lo, hhi, hlo, rfl⟩
  simp only [stepRunning, hfetch, runWord, decode_pair_eq_error hdecode]

/-- Settles O11: the unknown word goes to `runUnknown`, and the poll follows since it does not halt. -/
theorem unknownWordIsNoOp : Obligations.UnknownWordIsNoOp := by
  intro s hruns hunknown
  have hunknown' : FetchesUnknown (s.setEnv (envAfterCore s)) := hunknown
  have running : (s.setEnv (envAfterCore s)).run = .running := hruns.2
  rw [step_of_running hruns, stepRunning_of_fetchesUnknown hunknown', runUnknown, afterExecute_markUnknown running]
  rfl

theorem ne_halt0_of_accessFaults (h : AccessFaults i s) : i ≠ .halt0 := by
  rintro rfl
  exact h.1 rfl

/-- R66: out of range, each of the four instructions that access data halts. -/
theorem exec_of_accessFaults (h : AccessFaults i s) : exec i s = .next (s.raiseHalt .addrFault) := by
  obtain ⟨size, outside⟩ := accessFaults_iff.mp h
  cases i with
  | drw x y n =>
    rcases exec_drw s x y n with ⟨inside, _⟩ | ⟨_, _, e⟩
    · simp only [accessSize] at size outside
      omega
    · exact e
  | ldBVx x =>
    rcases exec_ldBVx s x with ⟨inside, _⟩ | ⟨_, e⟩
    · exact absurd outside (Nat.not_lt_of_le inside)
    · exact e
  | ldMemVx x =>
    rcases exec_ldMemVx s x with ⟨inside, _⟩ | ⟨_, e⟩
    · exact absurd outside (Nat.not_lt_of_le inside)
    · exact e
  | ldVxMem x =>
    rcases exec_ldVxMem s x with ⟨inside, _⟩ | ⟨_, e⟩
    · exact absurd outside (Nat.not_lt_of_le inside)
    · exact e
  | _ => exact absurd rfl size

/-- Settles O15: `exec_of_accessFaults`, in the step after the advance; the halt leaves no poll. -/
theorem addressFaultIsPrecise : Obligations.AddressFaultIsPrecise := by
  refine ⟨fun i s => exec_of_accessFaults, fun i s hruns hfetch hfault => ?_⟩
  have advance : beforeExecute i (s.setEnv (envAfterCore s)) = (s.setEnv (envAfterCore s)).advancePc :=
    if_neg (ne_halt0_of_accessFaults hfault)
  have hfault' : AccessFaults i (s.setEnv (envAfterCore s)).advancePc := hfault
  rw [step_of_fetches hruns hfetch, runInstr_of_exec (by rw [advance]; exact exec_of_accessFaults hfault')]
  rfl

/-- A step of the core always answers a next state (R102). -/
theorem coreTurn_total (s : State) : ∃ t, coreTurn s = .next t := by
  rcases coreTurn_cases s with ⟨_, e⟩ | ⟨_, e⟩ | ⟨_, e⟩
  · rcases stepRunning_cases s.markStarted with ⟨_, e'⟩ | ⟨_, _, _, ⟨_, _, _, _, e'⟩ | ⟨_, _, e'⟩⟩ <;>
      exact ⟨_, e.trans e'⟩
  · exact ⟨_, e⟩
  · exact ⟨_, e⟩

/-- Settles O19: of the turns only a late load is refused; the core's is total. -/
theorem onlyLateLoadHasNoNextState : Obligations.OnlyLateLoadHasNoNextState := by
  refine ⟨fun s bytes hturn hstarted => ?_, fun s hfirst => ?_⟩
  · rw [step, machineStep, hturn]
    exact if_pos hstarted
  · rcases step_cases s with ⟨_, e⟩ | ⟨_, e⟩ | ⟨_, e⟩ | ⟨bytes, hturn, hstarted, _⟩ | ⟨_, _, _, e⟩
    · obtain ⟨t, ht⟩ := coreTurn_total (s.withTurns s.env.turns.tail)
      exact ⟨t, e.trans ht⟩
    · exact ⟨_, e⟩
    · exact ⟨_, e⟩
    · rw [hfirst bytes hturn] at hstarted
      cases hstarted
    · exact ⟨_, e⟩

end Sys2Proof.Machine
end

section
/-! PROOF of the statements on every step of the machine: who leaves Halted (R127, R268), raises DT (R249), writes ST
(R242), memory and the display (R23, R29), `DIAG` (R43) and `RUN` (R40). Each goes through the cases of `Transition`. -/

namespace Sys2Proof.Machine

open Sys2Proof.Claims

variable {s t u : State} {i : Instr}

/-! Halted (R127). -/

/-- Settles O13: in Halted the core's turn is `stepHalted`, and no turn but a reset writes `RUN` or `HALT_CAUSE`. -/
theorem haltedIsTerminal : Obligations.HaltedIsTerminal := by
  refine ⟨fun s hturn hrun => step_of_halted hturn hrun, fun s t hrun hreset hstep => ?_⟩
  cases transition_of_step hstep with
  | fetchFault hruns | instr hruns | unknown hruns => cases hrun.symm.trans hruns.2
  | waiting _ hwait => cases hrun.symm.trans hwait
  | halted => exact ⟨hrun, rfl⟩
  | tick => rw [State.tick_eq]; exact ⟨hrun, rfl⟩
  | reset hturn => exact absurd hturn hreset
  | load => rw [State.loadProgram_eq]; exact ⟨hrun, rfl⟩

/-! The timers (R242, R249). -/

@[simp] theorem getV_beforeExecute (i : Instr) (e : Env) (s : State) (r : Reg) :
    (beforeExecute i (s.setEnv e)).getV r = s.getV r := by
  rw [beforeExecute_eq]
  rfl

theorem tick_dt_le (s : State) : s.tick.dt.toNat ≤ s.dt.toNat := by
  rw [State.tick_dt]
  omega

/-- Settles O17: by `Effect.dt` an instruction but LD DT, Vx keeps DT, a tick takes it down and a reset makes it 0. -/
theorem delayTimerRisesOnlyByLdDt : Obligations.DelayTimerRisesOnlyByLdDt := by
  intro s t hstep hrise
  cases transition_of_step hstep with
  | instr hruns _ hfetch heffect =>
    rw [afterExecute_dt] at hrise ⊢
    rcases heffect.dt with same | ⟨x, rfl, hdt⟩
    · rw [same, beforeExecute_eq] at hrise
      exact absurd hrise (Nat.lt_irrefl _)
    · exact ⟨hruns, x, hfetch, by rw [hdt, getV_beforeExecute]⟩
  | unknown | waiting =>
    rw [State.poll_dt] at hrise
    exact absurd hrise (Nat.lt_irrefl _)
  | fetchFault | halted => exact absurd hrise (Nat.lt_irrefl _)
  | tick => exact absurd hrise (Nat.not_lt_of_le (tick_dt_le (s.withTurns s.env.turns.tail)))
  | reset => exact absurd hrise (Nat.not_lt_zero _)
  | load =>
    rw [State.loadProgram_eq] at hrise
    exact absurd hrise (Nat.lt_irrefl _)

/-- Settles O45: LD ST, Vx is `State.setSt`; by `Effect.st` no other instruction writes ST, and no turn but a reset. -/
theorem soundRegisterIsSetAndNeverCounts : Obligations.SoundRegisterIsSetAndNeverCounts := by
  refine ⟨fun x s => ⟨decodes_of_encode_eq_packXnn (op := 0xF) (nn := 0x18) rfl, rfl⟩, fun s t hstep hchange => ?_⟩
  cases transition_of_step hstep with
  | instr hruns _ hfetch heffect =>
    rw [afterExecute_st] at hchange
    rcases heffect.st with same | ⟨x, rfl⟩
    · rw [same, beforeExecute_eq] at hchange
      exact absurd rfl hchange
    · exact .inr ⟨hruns, x, hfetch⟩
  | unknown | waiting =>
    rw [State.poll_st] at hchange
    exact absurd rfl hchange
  | fetchFault | halted => exact absurd rfl hchange
  | tick =>
    rw [State.tick_eq] at hchange
    exact absurd rfl hchange
  | reset hturn => exact .inl hturn
  | load =>
    rw [State.loadProgram_eq] at hchange
    exact absurd rfl hchange

/-! Memory and the display (R23, R29). -/

theorem State.readByte_congr (hmem : t.mem = s.mem) (hparams : t.params = s.params) (a : Nat) :
    t.readByte a = s.readByte a := by
  rw [State.readByte, State.readByte, hmem, hparams]

theorem State.getPixelAt_congr (hdisp : t.disp = s.disp) (x : Fin 64) (y : Fin 32) :
    t.getPixelAt x y = s.getPixelAt x y := by
  rw [State.getPixelAt, State.getPixelAt, hdisp]

theorem Transition.mem (h : Transition s t) :
    t.mem = s.mem ∨ s.nextTurn = .reset ∨ (∃ bytes, s.nextTurn = .load bytes) ∨
      (CoreRuns s ∧ ∃ i, isStore i = true ∧ Fetches s i) := by
  cases h with
  | instr hruns _ hfetch heffect =>
    rw [afterExecute_mem]
    rcases heffect.mem with same | hstore
    · exact .inl (by rw [same, beforeExecute_eq]; rfl)
    · exact .inr (.inr (.inr ⟨hruns, _, hstore, hfetch⟩))
  | unknown | waiting => exact .inl (by rw [State.poll_mem]; rfl)
  | fetchFault | halted => exact .inl rfl
  | tick => exact .inl (by rw [State.tick_eq]; rfl)
  | reset hturn => exact .inr (.inl hturn)
  | load hturn => exact .inr (.inr (.inl ⟨_, hturn⟩))

theorem Transition.disp (h : Transition s t) :
    t.disp = s.disp ∨ s.nextTurn = .reset ∨ (CoreRuns s ∧ ∃ i, isPainter i = true ∧ Fetches s i) := by
  cases h with
  | instr hruns _ hfetch heffect =>
    rw [afterExecute_disp]
    rcases heffect.disp with same | hpainter
    · exact .inl (by rw [same, beforeExecute_eq]; rfl)
    · exact .inr (.inr ⟨hruns, _, hpainter, hfetch⟩)
  | unknown | waiting => exact .inl (by rw [State.poll_disp]; rfl)
  | fetchFault | halted => exact .inl rfl
  | tick => exact .inl (by rw [State.tick_eq]; rfl)
  | reset hturn => exact .inr (.inl hturn)
  | load => exact .inl (by rw [State.loadProgram_eq]; rfl)

/-- Settles O53: a byte that reads otherwise shows that memory, the FONT being kept, is not the same (`Transition.mem`),
a cell that the display is not (`Transition.disp`). -/
theorem onlyStoresWriteMemoryOnlyPaintersDisplay : Obligations.OnlyStoresWriteMemoryOnlyPaintersDisplay := by
  intro s t hstep
  have htrans := transition_of_step hstep
  refine ⟨fun ⟨a, hbyte⟩ => htrans.mem.resolve_left fun same => ?_,
    fun ⟨x, y, hcell⟩ => htrans.disp.resolve_left fun same => ?_⟩
  · exact hbyte (State.readByte_congr same htrans.params a)
  · exact hcell (State.getPixelAt_congr same x y)

/-! `DIAG` and reset (R43, R300). -/

/-- The bits of `DIAG` are sticky: none that is set is cleared. -/
def Diag.Sticky (d e : Diag) : Prop :=
  (d.unk = true → e.unk = true) ∧ (d.sovf = true → e.sovf = true) ∧ (d.sunf = true → e.sunf = true) ∧
    (d.loadTrunc = true → e.loadTrunc = true)

theorem Diag.Sticky.refl (d : Diag) : d.Sticky d := ⟨id, id, id, id⟩

theorem Effect.sticky (h : Effect i s t) : s.diag.Sticky t.diag := by
  cases h with
  | retAbandoned => exact ⟨id, id, fun _ => rfl, id⟩
  | callAbandoned => exact ⟨id, fun _ => rfl, id, id⟩
  | _ => exact .refl _

theorem Transition.sticky (h : Transition s t) (hreset : s.nextTurn ≠ .reset) : s.diag.Sticky t.diag := by
  cases h with
  | instr _ _ _ heffect =>
    have sticky := heffect.sticky
    rw [beforeExecute_eq] at sticky
    rw [afterExecute_diag]
    exact sticky
  | unknown =>
    rw [State.poll_diag]
    exact ⟨fun _ => rfl, id, id, id⟩
  | waiting =>
    rw [State.poll_diag]
    exact .refl _
  | fetchFault | halted => exact .refl _
  | tick => rw [State.tick_eq]; exact .refl _
  | reset hturn => exact absurd hturn hreset
  | load =>
    rw [State.loadProgram_eq]
    exact ⟨id, id, id, fun set => Bool.or_eq_true_iff.mpr (.inl set)⟩

/-- Memory that lists nothing reads as its reset content (R32). -/
theorem fontInZeroedMemory_of_mem_nil (h : s.mem = []) : FontInZeroedMemory s := by
  refine ⟨fun k => ?_, fun a ha hout => ?_⟩
  · have := k.isLt
    rw [State.readByte_eq _ (by simp only [Config.memSize]; omega), h]
    exact congrArg some (resetByte_font k)
  · rw [State.readByte_eq _ ha, h]
    refine congrArg some (resetByte_outside ?_)
    simp only [Config.fontBase, Config.fontSize]
    omega

theorem step_of_reset_turn (h : s.nextTurn = .reset) : step s = .next (s.withTurns s.env.turns.tail).resetTurn := by
  rw [step, machineStep, h, takeTurn]

/-- Settles O20: the reset turn is `State.resetTurn`, the reset state but for the outside; any other step keeps Halted
by O13 and, by `Transition.sticky`, each bit of `DIAG`. -/
theorem onlyResetRevivesAndClears : Obligations.OnlyResetRevivesAndClears := by
  refine ⟨fun s hturn => ⟨_, step_of_reset_turn hturn, rfl, rfl, rfl, rfl, fontInZeroedMemory_of_mem_nil rfl⟩,
    fun s t hstep hreset => ⟨fun hrun => ?_, (transition_of_step hstep).sticky hreset⟩⟩
  exact (haltedIsTerminal.2 s t hrun hreset hstep).1

/-- Settles O21: each item by its definition, the registers, the stack and the display cell by cell. -/
theorem resetStateValues : Obligations.ResetStateValues := by
  refine ⟨fun p => ⟨rfl, rfl, rfl, rfl, rfl, fun r => ?_, rfl, rfl, fun k => ?_, fun x y => ?_, rfl, rfl, ?_,
    fontInZeroedMemory_of_mem_nil rfl⟩, rfl, rfl⟩
  · simp [State.getV, State.resetWith]
  · simp [State.resetWith]
  · exact Display.cell_clear y x
  · show Diag.bits ⟨false, false, false, false⟩ = 0
    decide

/-! `RUN` (R40). -/

/-- What a poll does to `RUN` (R130). -/
theorem State.poll_run (s : State) :
    (s.poll.run = s.run ∧ s.poll.haltCause = s.haltCause) ∨
    (s.poll.run = .halted ∧ s.poll.haltCause = .quit ∧ s.nextEvent = .quit) ∨
    (s.run = .waitingForKey ∧ s.poll.run = .running ∧ ∃ k, s.nextEvent = .keyboard k) := by
  rcases s.poll_cases with ⟨_, e⟩ | ⟨hquit, e⟩ | ⟨k, hkey, hwait, e⟩ | ⟨_, _, _, e⟩ <;> rw [e]
  · exact .inl ⟨rfl, rfl⟩
  · exact .inr (.inl ⟨rfl, rfl, hquit⟩)
  · exact .inr (.inr ⟨hwait, rfl, k, hkey⟩)
  · exact .inl ⟨rfl, rfl⟩

theorem afterExecute_of_halted (h : s.run = .halted) : afterExecute s = s := if_pos h

theorem afterExecute_of_not_halted (h : s.run ≠ .halted) : afterExecute s = s.poll := if_neg h

theorem accessFaults_beforeExecute {e : Env} (h : AccessFaults i (beforeExecute i (s.setEnv e))) :
    AccessFaults i s := by
  rw [beforeExecute_eq] at h
  exact h

theorem Effect.nextEvent (h : Effect i (beforeExecute i (s.setEnv (envAfterCore s))) t) :
    t.nextEvent = s.nextEvent := by
  rw [State.nextEvent, h.events, beforeExecute_eq]
  rfl

/-- The transitions of `RUN` in a step of a Running core that executes an instruction (R40). -/
theorem Effect.run_afterExecute (h : Effect i (beforeExecute i (s.setEnv (envAfterCore s))) u) (hrun : s.run = .running)
    (hchange : (afterExecute u).run ≠ .running) :
    ((afterExecute u).run = .waitingForKey ∧ ∃ x, i = .ldVxK x) ∨
    ((afterExecute u).run = .halted ∧ (afterExecute u).haltCause = .quit ∧ s.nextEvent = .quit) ∨
    ((afterExecute u).run = .halted ∧ (afterExecute u).haltCause = .zeroWord ∧ i = .halt0) ∨
    ((afterExecute u).run = .halted ∧ (afterExecute u).haltCause = .addrFault ∧ AccessFaults i s) := by
  have before : (beforeExecute i (s.setEnv (envAfterCore s))).run = .running := by
    rw [beforeExecute_eq]
    exact hrun
  have event := h.nextEvent
  rcases h.run with ⟨run, _⟩ | ⟨hkey, run, _⟩ | ⟨hzero, run, cause⟩ | ⟨hfault, run, cause⟩
  · rw [before] at run
    rw [afterExecute_of_not_halted (by simp [run])] at hchange ⊢
    rcases u.poll_run with ⟨same, _⟩ | ⟨halted, quit, hquit⟩ | ⟨waiting, _⟩
    · exact absurd (same.trans run) hchange
    · exact .inr (.inl ⟨halted, quit, event ▸ hquit⟩)
    · cases run.symm.trans waiting
  · rw [afterExecute_of_not_halted (by simp [run])] at hchange ⊢
    rcases u.poll_run with ⟨same, _⟩ | ⟨halted, quit, hquit⟩ | ⟨_, running, _⟩
    · exact .inl ⟨same.trans run, hkey⟩
    · exact .inr (.inl ⟨halted, quit, event ▸ hquit⟩)
    · exact absurd running hchange
  · rw [afterExecute_of_halted run]
    exact .inr (.inr (.inl ⟨run, cause, hzero⟩))
  · rw [afterExecute_of_halted run]
    exact .inr (.inr (.inr ⟨run, cause, accessFaults_beforeExecute hfault⟩))

/-- Settles O55: an executed instruction by `Effect.run_afterExecute`, a poll alone by `State.poll_run`; the turns of
the other agents, but for a reset, do not write `RUN`. -/
theorem runTransitions : Obligations.RunTransitions := by
  intro s t hstep hreset hchange
  cases transition_of_step hstep with
  | fetchFault hruns hpc =>
    exact ⟨hruns.1, .inr (.inr (.inr (.inr (.inl ⟨hruns.2, rfl, rfl, hpc⟩))))⟩
  | instr hruns _ hfetch heffect =>
    obtain ⟨hturn, hrun⟩ := hruns
    refine ⟨hturn, ?_⟩
    rcases heffect.run_afterExecute hrun (hrun ▸ hchange) with
      ⟨run, x, rfl⟩ | ⟨run, cause, hquit⟩ | ⟨run, cause, rfl⟩ | ⟨run, cause, hfault⟩
    · exact .inl ⟨hrun, run, x, hfetch⟩
    · exact .inr (.inr (.inl ⟨by simp [hrun], run, cause, hquit⟩))
    · exact .inr (.inr (.inr (.inl ⟨hrun, run, cause, hfetch⟩)))
    · exact .inr (.inr (.inr (.inr (.inr ⟨hrun, run, cause, _, hfetch, hfault⟩))))
  | unknown hruns =>
    obtain ⟨hturn, hrun⟩ := hruns
    rcases State.poll_run (s.setEnv (envAfterCore s)).advancePc.markUnknown with
      ⟨same, _⟩ | ⟨run, cause, hquit⟩ | ⟨waiting, _⟩
    · exact absurd same hchange
    · exact ⟨hturn, .inr (.inr (.inl ⟨by simp [hrun], run, cause, hquit⟩))⟩
    · cases hrun.symm.trans waiting
  | waiting hturn hwait =>
    refine ⟨hturn, ?_⟩
    rcases State.poll_run (s.setEnv (envAfterCore s)) with ⟨same, _⟩ | ⟨run, cause, hquit⟩ | ⟨_, run, hkey⟩
    · exact absurd same hchange
    · exact .inr (.inr (.inl ⟨by simp [hwait], run, cause, hquit⟩))
    · exact .inr (.inl ⟨hwait, run, hkey⟩)
  | halted => exact absurd rfl hchange
  | tick =>
    rw [State.tick_eq] at hchange
    exact absurd rfl hchange
  | reset hturn => exact absurd hturn hreset
  | load =>
    rw [State.loadProgram_eq] at hchange
    exact absurd rfl hchange

end Sys2Proof.Machine
end

section
/-! PROOF of the statements of 42_load_alu_random.md section 2 on the instructions that write VF as a flag, and of
section 3 on RND. The order of the two writes (R176) shows where `x` or the source is F. -/

namespace Sys2Proof.Machine

open Sys2Proof.Claims

variable (s : State)

/-! The flags as numbers (R22, R27). -/

theorem toNat_flagByte (b : Bool) : (flagByte b).toNat = if b then 1 else 0 := by
  cases b <;> rfl

theorem toNat_carryFlag (a b : Byte) : (carryFlag a b).toNat = if 255 < a.toNat + b.toNat then 1 else 0 := by
  simp [carryFlag, toNat_flagByte]

theorem toNat_notBorrowFlag (a b : Byte) : (notBorrowFlag a b).toNat = if b.toNat ≤ a.toNat then 1 else 0 := by
  simp [notBorrowFlag, toNat_flagByte]

theorem toNat_shiftedOutRight (a : Byte) : (shiftedOutRight a).toNat = a.toNat % 2 := by
  rw [shiftedOutRight, BitVec.toNat_and]
  exact Nat.and_two_pow_sub_one_eq_mod _ 1

theorem toNat_shiftedOutLeft (a : Byte) : (shiftedOutLeft a).toNat = a.toNat / 128 := by
  have high : (shiftedOutLeft a).toNat = (a.toNat >>> 7) &&& 1 := by
    rw [shiftedOutLeft, BitVec.toNat_ushiftRight, BitVec.toNat_and, Nat.shiftRight_and_distrib]
    rfl
  have bit : (a.toNat >>> 7) &&& 1 = a.toNat / 128 % 2 := by
    rw [Nat.shiftRight_eq_div_pow]
    exact Nat.and_two_pow_sub_one_eq_mod _ 1
  have := a.isLt
  omega

/-! The results as numbers. -/

theorem toNat_halved (a : Byte) : (a >>> 1).toNat = a.toNat / 2 := by
  rw [BitVec.toNat_ushiftRight, Nat.shiftRight_eq_div_pow, pow_one]

theorem toNat_doubled (a : Byte) : (a <<< 1).toNat = 2 * a.toNat % 256 := by
  rw [BitVec.toNat_shiftLeft, Nat.shiftLeft_eq, pow_one, Nat.mul_comm]

theorem toNat_difference (a b : Byte) : (a - b).toNat = (256 + a.toNat - b.toNat) % 256 := by
  have := b.isLt
  rw [BitVec.toNat_sub]
  omega

/-! The two writes of `State.flagThen`, one by one. -/

theorem State.getV_flagThen_dest (flag : Byte) (x : Reg) (result : State → Byte) :
    (s.flagThen flag x result).getV x = result (s.setV flagReg flag) := by
  rw [State.getV_flagThen, if_pos rfl]

theorem State.getV_flagThen_flag {x : Reg} (hx : x ≠ 0xF) (flag : Byte) (result : State → Byte) :
    (s.flagThen flag x result).getV 0xF = flag := by
  rw [State.getV_flagThen, if_neg hx.symm]
  rfl

theorem State.flagThen_frame (flag : Byte) (x : Reg) (result : State → Byte) :
    regsKept [x, 0xF] s (s.flagThen flag x result) ∧
      s.flagThen flag x result = { s with v := (s.flagThen flag x result).v } :=
  ⟨regsKept_flagThen s flag x result, s.flagThen_eq flag x result⟩

/-- Settles O29: the carry is the last write; the sum stands where the carry did not go. -/
theorem addWritesCarryLast : Obligations.AddWritesCarryLast := by
  refine fun x y s => ⟨decodes_of_encode_eq_packXyn (op := 0x8) (n := 4) rfl, _, rfl, ?_, fun hx => ?_,
    regsKept_add s x _ _, rfl⟩
  · exact (congrArg BitVec.toNat (State.getV_setV_same _ flagReg _)).trans (toNat_carryFlag _ _)
  · have hx : x ≠ flagReg := hx
    rw [State.getV_setV_ne _ hx, State.getV_setV_same, BitVec.toNat_add]

/-- SUB and SUBN alike: `V[a]` minus `V[b]` into `V[x]`, each read as the flag's write left it. -/
theorem State.flagThen_sub {flag : Byte} {f : Nat} (hf : flag.toNat = f) (x a b : Reg) :
    let t := s.flagThen flag x fun t => t.getV a - t.getV b
    (t.getV x).toNat =
      (256 + (if a = 0xF then f else (s.getV a).toNat) - (if b = 0xF then f else (s.getV b).toNat)) % 256 ∧
    (x ≠ 0xF → (t.getV 0xF).toNat = f) := by
  have after (r : Reg) : ((s.setV flagReg flag).getV r).toNat = if r = 0xF then f else (s.getV r).toNat := by
    rw [State.getV_setV, apply_ite BitVec.toNat, hf]
    rfl
  refine ⟨?_, fun hx => (congrArg BitVec.toNat (s.getV_flagThen_flag hx flag _)).trans hf⟩
  rw [State.getV_flagThen_dest, toNat_difference, after, after]

/-- Settles O30: `State.flagThen_sub`, in the four cases by which of the two registers the flag's write changed. -/
theorem subWritesNotBorrowFirst : Obligations.SubWritesNotBorrowFirst := by
  refine fun x y s => ⟨decodes_of_encode_eq_packXyn (op := 0x8) (n := 5) rfl, _, rfl, ?_, s.flagThen_frame _ x _⟩
  obtain ⟨diff, vf⟩ := s.flagThen_sub (toNat_notBorrowFlag (s.getV x) (s.getV y)) x x y
  intro vx vy b
  by_cases hx : x = 0xF <;> by_cases hy : y = 0xF
  · subst hx hy
    simpa using diff
  · subst hx
    simpa [hy] using diff
  · subst hy
    simpa [hx] using And.intro diff (vf hx)
  · simpa [hx, hy] using And.intro diff (vf hx)

/-- Settles O31: as O30, with the operands the other way round. -/
theorem subnWritesNotBorrowFirst : Obligations.SubnWritesNotBorrowFirst := by
  refine fun x y s => ⟨decodes_of_encode_eq_packXyn (op := 0x8) (n := 7) rfl, _, rfl, ?_, s.flagThen_frame _ x _⟩
  obtain ⟨diff, vf⟩ := s.flagThen_sub (toNat_notBorrowFlag (s.getV y) (s.getV x)) x y x
  intro vx vy b
  by_cases hx : x = 0xF <;> by_cases hy : y = 0xF
  · subst hx hy
    simpa using diff
  · subst hx
    simpa [hy] using diff
  · subst hy
    simpa [hx] using And.intro diff (vf hx)
  · simpa [hx, hy] using And.intro diff (vf hx)

/-- The four cases of a shift by whether `x` and the source are F: `r` is the source shifted, `f` the flag and `z` the
flag shifted, which is what the shift gives where the flag's write changed its source (R183, R185). -/
theorem State.flagThen_shift_cases {flag : Byte} {shift : Byte → Byte} (x src : Reg) {r f z : Nat}
    (hr : (shift (s.getV src)).toNat = r) (hf : flag.toNat = f) (hz : (shift flag).toNat = z) :
    let t := s.flagThen flag x fun t => shift (t.getV src)
    if x ≠ 0xF ∧ src ≠ 0xF then (t.getV x).toNat = r ∧ (t.getV 0xF).toNat = f
    else if src ≠ 0xF then (t.getV 0xF).toNat = r
    else if x ≠ 0xF then (t.getV x).toNat = z ∧ (t.getV 0xF).toNat = f
    else (t.getV 0xF).toNat = z := by
  intro t
  have dest : t.getV x = shift (if src = 0xF then flag else s.getV src) := by
    rw [State.getV_flagThen_dest, State.getV_setV]
    rfl
  have vf := fun hx : x ≠ 0xF => s.getV_flagThen_flag hx flag fun t => shift (t.getV src)
  by_cases hx : x = 0xF <;> by_cases hsrc : src = 0xF
  · subst hx
    simpa [hsrc, dest] using hz
  · subst hx
    simpa [hsrc, dest] using hr
  · simpa [hx, hsrc, dest] using ⟨hz, (congrArg BitVec.toNat (vf hx)).trans hf⟩
  · simpa [hx, hsrc, dest] using ⟨hr, (congrArg BitVec.toNat (vf hx)).trans hf⟩

/-- Settles O32: `State.flagThen_shift_cases`, bit 0 alone being halved to 0. -/
theorem shrReadsSourceAfterFlag : Obligations.ShrReadsSourceAfterFlag := by
  refine ⟨fun x y s => ⟨decodes_of_encode_eq_packXyn (op := 0x8) (n := 6) rfl, rfl⟩, fun readsVy x y s =>
    ⟨s.flagThen_shift_cases (shift := (· >>> 1)) x (shiftSource readsVy x y) (toNat_halved _)
        (toNat_shiftedOutRight _) ?_,
      s.flagThen_frame _ x _⟩⟩
  rw [toNat_halved, toNat_shiftedOutRight]
  omega

/-- Settles O33: `State.flagThen_shift_cases`, bit 7 alone being doubled without loss. -/
theorem shlReadsSourceAfterFlag : Obligations.ShlReadsSourceAfterFlag := by
  refine ⟨fun x y s => ⟨decodes_of_encode_eq_packXyn (op := 0x8) (n := 0xE) rfl, rfl⟩, fun readsVy x y s =>
    ⟨s.flagThen_shift_cases (shift := (· <<< 1)) x (shiftSource readsVy x y) (toNat_doubled _)
        (toNat_shiftedOutLeft _) ?_,
      s.flagThen_frame _ x _⟩⟩
  have := (s.getV (shiftSource readsVy x y)).isLt
  rw [toNat_doubled, toNat_shiftedOutLeft]
  exact Nat.mod_eq_of_lt (by omega)

/-! Random input (R190, R191). -/

/-- Settles O34: the byte drawn is the head of the coming ones or the free value, and the draw takes it from them
whatever `nn` is (`State.drawRandom_eq`). -/
theorem rndMasksOneRandomByte : Obligations.RndMasksOneRandomByte := by
  intro x nn s
  obtain ⟨drawn, byte⟩ := s.drawRandom_eq
  refine ⟨decodes_of_toNat_encode (toNat_packXnn 0xC x nn), _, rfl, fun k => ?_, ?_, ?_⟩
  · rw [State.getLsbD_getV_setV_and, byte]
  · rw [drawn]
    exact regsKept_setV _ x _
  · rw [drawn]
    rfl

end Sys2Proof.Machine
end

section
/-! PROOF of the frame statements (R22, R23): what each kind of instruction leaves unchanged, read off its `Effect`. -/

namespace Sys2Proof.Machine

open Sys2Proof.Claims

variable {s t : State} {i : Instr}

theorem memKept_of_mem (hmem : t.mem = s.mem) (hparams : t.params = s.params) (stored : Nat → Prop) :
    memKept stored s t :=
  fun a _ => State.readByte_congr hmem hparams a

theorem Effect.memKept_noBytes (h : Effect i s t) (hstore : isStore i = false) : memKept noBytes s t :=
  memKept_of_mem (h.mem.resolve_right (by simp [hstore])) h.params noBytes

/-! No instruction is of two kinds. -/

theorem kinds_of_registerDests {ds : List Reg} (h : registerDests i = some ds) :
    pcOnly i = false ∧ indexOnly i = false ∧ isStore i = false ∧ accessSize i = 0 := by
  cases i <;> cases h <;> exact ⟨rfl, rfl, rfl, rfl⟩

theorem kinds_of_pcOnly (h : pcOnly i = true) :
    registerDests i = none ∧ indexOnly i = false ∧ isStore i = false ∧ accessSize i = 0 := by
  cases i <;> cases h <;> exact ⟨rfl, rfl, rfl, rfl⟩

theorem kinds_of_indexOnly (h : indexOnly i = true) :
    registerDests i = none ∧ pcOnly i = false ∧ isStore i = false ∧ accessSize i = 0 := by
  cases i <;> cases h <;> exact ⟨rfl, rfl, rfl, rfl⟩

theorem kinds_of_isStore (h : isStore i = true) : registerDests i = none ∧ pcOnly i = false ∧ indexOnly i = false := by
  cases i <;> cases h <;> exact ⟨rfl, rfl, rfl⟩

/-! The effect of an instruction of a known kind. -/

theorem Effect.of_registerDests {ds : List Reg} (h : Effect i s t) (hdests : registerDests i = some ds) :
    regsKept ds s t ∧ t = { s with v := t.v, env := t.env } ∧ ((∀ x nn, i ≠ .rnd x nn) → t.env = s.env) := by
  obtain ⟨noJump, noIndex, noStore, noAccess⟩ := kinds_of_registerDests hdests
  cases h with
  | registers hdests' hregs =>
    cases hdests.symm.trans hdests'
    exact ⟨hregs, rfl, fun _ => rfl⟩
  | random =>
    cases hdests
    exact ⟨regsKept_setV _ _ _, rfl, fun hno => absurd rfl (hno _ _)⟩
  | jump hjump => cases noJump.symm.trans hjump
  | index _ hindex => cases noIndex.symm.trans hindex
  | store hstore => cases noStore.symm.trans hstore
  | addrFault hfault => exact absurd noAccess hfault.1
  | _ => cases hdests

theorem Effect.of_pcOnly (h : Effect i s t) (hjump : pcOnly i = true) : t = s.setPc t.pc := by
  obtain ⟨noDests, noIndex, noStore, noAccess⟩ := kinds_of_pcOnly hjump
  cases h with
  | jump => rfl
  | registers hdests => cases noDests.symm.trans hdests
  | index _ hindex => cases noIndex.symm.trans hindex
  | store hstore => cases noStore.symm.trans hstore
  | addrFault hfault => exact absurd noAccess hfault.1
  | _ => cases hjump

theorem Effect.of_indexOnly (h : Effect i s t) (hindex : indexOnly i = true) : t = s.setI t.i := by
  obtain ⟨noDests, noJump, noStore, noAccess⟩ := kinds_of_indexOnly hindex
  cases h with
  | index => rfl
  | registers hdests => cases noDests.symm.trans hdests
  | jump hjump => cases noJump.symm.trans hjump
  | store hstore => cases noStore.symm.trans hstore
  | addrFault hfault => exact absurd noAccess hfault.1
  | _ => cases hindex

/-- A store writes its bytes at `I` up, or halts (R66). -/
theorem Effect.of_isStore (h : Effect i s t) (hstore : isStore i = true) :
    (¬ AccessFaults i s ∧ ∃ bs : List Byte, bs.length = accessSize i ∧ t = s.putBytes s.i.toNat bs) ∨
    (AccessFaults i s ∧ t = s.raiseHalt .addrFault) := by
  obtain ⟨noDests, noJump, noIndex⟩ := kinds_of_isStore hstore
  cases h with
  | store _ hin hlen => exact .inl ⟨hin, _, hlen, rfl⟩
  | addrFault hfault => exact .inr ⟨hfault, rfl⟩
  | registers hdests => cases noDests.symm.trans hdests
  | jump hjump => cases noJump.symm.trans hjump
  | index _ hindex => cases noIndex.symm.trans hindex
  | _ => cases hstore

/-- Settles O48: `Effect.of_registerDests`; besides the destinations only RND's draw writes anything. -/
theorem registerOnlyFrame : Obligations.RegisterOnlyFrame := by
  intro i ds s t hdests hexec
  have heffect := effect_of_exec hexec
  obtain ⟨hregs, frame, henv⟩ := heffect.of_registerDests hdests
  obtain ⟨_, _, noStore, _⟩ := kinds_of_registerDests hdests
  refine ⟨hregs, heffect.memKept_noBytes noStore, heffect.params, ?_, ?_, ?_, ?_, ?_, ?_, heffect.events, heffect.turns,
    heffect.started, henv⟩ <;> rw [frame]
  · exact ⟨rfl, rfl⟩
  · exact ⟨rfl, rfl⟩
  · exact ⟨rfl, rfl, rfl, rfl⟩

theorem frame_of_pcOnly (hjump : pcOnly i = true) (h : Effect i s t) :
    regsKept [] s t ∧ memKept noBytes s t ∧ t.params = s.params ∧ t.i = s.i ∧ stackKept s t ∧ t.disp = s.disp ∧
    timersKept s t ∧ controlKept s t ∧ t.env = s.env := by
  rw [h.of_pcOnly hjump]
  exact ⟨fun _ _ => rfl, fun _ _ => rfl, rfl, rfl, ⟨rfl, rfl⟩, rfl, ⟨rfl, rfl⟩, ⟨rfl, rfl, rfl, rfl⟩, rfl⟩

/-- Settles O49: a jump or skip by `Effect.of_pcOnly`, RET and CALL by their two outcomes each. -/
theorem controlFlowFrame : Obligations.ControlFlowFrame := by
  refine ⟨fun i s t hjump hexec => frame_of_pcOnly hjump (effect_of_exec hexec), fun s t hexec => ?_,
    fun nnn s t hexec => ?_⟩
  · rcases exec_ret s with ⟨live, e⟩ | ⟨empty, e⟩ <;> cases e.symm.trans hexec
    · exact ⟨fun _ _ => rfl, fun _ _ => rfl, rfl, rfl, rfl, rfl, ⟨rfl, rfl⟩, rfl, rfl, rfl, rfl, fun _ => rfl,
        fun empty => absurd empty live.ne'⟩
    · exact ⟨fun _ _ => rfl, fun _ _ => rfl, rfl, rfl, rfl, rfl, ⟨rfl, rfl⟩, rfl, rfl, rfl, rfl,
        fun live => absurd empty live.ne', fun _ => ⟨rfl, rfl, rfl⟩⟩
  · rcases exec_call s nnn with ⟨room, e⟩ | ⟨full, e⟩ <;> cases e.symm.trans hexec
    · exact ⟨fun _ _ => rfl, fun _ _ => rfl, rfl, rfl, fun k hk => Vector.getElem_set_ne room k.isLt hk.symm, rfl,
        ⟨rfl, rfl⟩, rfl, rfl, rfl, rfl, fun _ => rfl, fun full => absurd full room.ne⟩
    · exact ⟨fun _ _ => rfl, fun _ _ => rfl, rfl, rfl, fun _ _ => rfl, rfl, ⟨rfl, rfl⟩, rfl, rfl, rfl, rfl,
        fun room => absurd full room.ne, fun _ => ⟨rfl, rfl, rfl⟩⟩

/-- Settles O50: an index instruction by `Effect.of_indexOnly`, each of the other five by its one write. -/
theorem singleItemFrame : Obligations.SingleItemFrame := by
  rintro i s t hexec (hindex | ⟨x, rfl⟩ | ⟨x, rfl⟩ | ⟨x, rfl⟩ | rfl | rfl)
  · rw [(effect_of_exec hexec).of_indexOnly hindex]
    exact ⟨fun _ _ => rfl, fun _ _ => rfl, rfl, rfl, ⟨rfl, rfl⟩, rfl, rfl, fun no => (by cases no.symm.trans hindex),
      fun _ => rfl, fun _ => rfl, fun _ => ⟨rfl, fun _ => rfl⟩, fun _ => rfl, fun _ => rfl⟩
  all_goals
    cases hexec
    refine ⟨fun _ _ => rfl, fun _ _ => rfl, rfl, rfl, ⟨rfl, rfl⟩, rfl, rfl, fun _ => rfl, ?_⟩
  · exact ⟨fun no => absurd rfl (no x), fun _ => rfl, fun _ => ⟨rfl, fun _ => rfl⟩, fun _ => rfl, fun _ => rfl⟩
  · exact ⟨fun _ => rfl, fun no => absurd rfl (no x), fun _ => ⟨rfl, fun _ => rfl⟩, fun _ => rfl, fun _ => rfl⟩
  · exact ⟨fun _ => rfl, fun _ => rfl, fun no => absurd rfl (no x), fun _ => rfl, fun _ => rfl⟩
  · exact ⟨fun _ => rfl, fun _ => rfl, fun _ => ⟨rfl, fun no => absurd rfl no⟩, fun no => absurd rfl no, fun _ => rfl⟩
  · exact ⟨fun _ => rfl, fun _ => rfl, fun _ => ⟨rfl, fun _ => rfl⟩, fun _ => rfl, fun no => absurd rfl no⟩

theorem memKept_putBytes (s : State) (a : Nat) (bs : List Byte) :
    memKept (fun b => a ≤ b ∧ b < a + bs.length) s (s.putBytes a bs) :=
  fun _ hout => s.readByte_putBytes_outside (by omega)

/-- Settles O51: `Effect.of_isStore`, whose bytes stand at `I` up, as many as the access has. -/
theorem storeFrame : Obligations.StoreFrame := by
  intro i s t hstore hexec
  rcases (effect_of_exec hexec).of_isStore hstore with ⟨inside, bs, hlen, rfl⟩ | ⟨hfault, rfl⟩
  · refine ⟨?_, fun hfault => absurd hfault inside, fun _ _ => rfl, rfl, rfl, rfl, ⟨rfl, rfl⟩, rfl, ⟨rfl, rfl⟩,
      rfl, rfl, rfl, fun _ => ⟨rfl, rfl, rfl, rfl⟩⟩
    rintro a rfl
    rw [← hlen]
    exact memKept_putBytes s s.i.toNat bs
  · exact ⟨fun _ _ _ _ => rfl, fun _ _ _ => rfl, fun _ _ => rfl, rfl, rfl, rfl, ⟨rfl, rfl⟩, rfl, ⟨rfl, rfl⟩,
      rfl, rfl, rfl, fun inside => absurd hfault inside⟩

/-- LD Vx, [I] loads, or halts (R205, R66). -/
theorem Effect.of_ldVxMem {x : Reg} (h : Effect (.ldVxMem x) s t) :
    (¬ AccessFaults (.ldVxMem x) s ∧ (∀ r : Reg, x.val < r.val → t.getV r = s.getV r) ∧ t = s.setRegs t.v) ∨
    (AccessFaults (.ldVxMem x) s ∧ t = s.raiseHalt .addrFault) := by
  cases h with
  | load inside hregs => exact .inl ⟨inside, hregs, rfl⟩
  | addrFault hfault => exact .inr ⟨hfault, rfl⟩
  | registers hdests => cases hdests
  | jump hjump => cases hjump
  | index _ hindex => cases hindex
  | store hstore => cases hstore

/-- DRW draws, or halts (R225, R66). -/
theorem Effect.of_drw {x y : Reg} {n : Nibble} (h : Effect (.drw x y n) s t) :
    (¬ AccessFaults (.drw x y n) s ∧ regsKept [flagReg] s t ∧ t = (s.setRegs t.v).setDisp t.disp) ∨
    (AccessFaults (.drw x y n) s ∧ t = s.raiseHalt .addrFault) := by
  cases h with
  | draw inside hregs => exact .inl ⟨inside, hregs, rfl⟩
  | addrFault hfault => exact .inr ⟨hfault, rfl⟩
  | registers hdests => cases hdests
  | jump hjump => cases hjump
  | index _ hindex => cases hindex
  | store hstore => cases hstore

theorem frame_of_ldVxMem {x : Reg} (h : Effect (.ldVxMem x) s t) :
    t.disp = s.disp ∧ (∀ r : Reg, x.val < r.val → t.getV r = s.getV r) ∧
    (¬ AccessFaults (.ldVxMem x) s → controlKept s t) ∧
    (AccessFaults (.ldVxMem x) s → regsKept [] s t ∧ t.disp = s.disp) := by
  rcases h.of_ldVxMem with ⟨inside, hregs, frame⟩ | ⟨hfault, rfl⟩
  · exact ⟨by rw [frame]; rfl, hregs, fun _ => by rw [frame]; exact ⟨rfl, rfl, rfl, rfl⟩,
      fun hfault => absurd hfault inside⟩
  · exact ⟨rfl, fun _ _ => rfl, fun inside => absurd hfault inside, fun _ => ⟨fun _ _ => rfl, rfl⟩⟩

theorem frame_of_drw {x y : Reg} {n : Nibble} (h : Effect (.drw x y n) s t) :
    regsKept [flagReg] s t ∧ (¬ AccessFaults (.drw x y n) s → controlKept s t) ∧
    (AccessFaults (.drw x y n) s → regsKept [] s t ∧ t.disp = s.disp) := by
  rcases h.of_drw with ⟨inside, hregs, frame⟩ | ⟨hfault, rfl⟩
  · exact ⟨hregs, fun _ => by rw [frame]; exact ⟨rfl, rfl, rfl, rfl⟩, fun hfault => absurd hfault inside⟩
  · exact ⟨fun _ _ => rfl, fun inside => absurd hfault inside, fun _ => ⟨fun _ _ => rfl, rfl⟩⟩

/-- What LD Vx, [I] and DRW both leave unchanged. -/
theorem frame_of_read (h : Effect i s t) (hread : (∃ x, i = .ldVxMem x) ∨ ∃ x y n, i = .drw x y n) :
    memKept noBytes s t ∧ t.params = s.params ∧ t.pc = s.pc ∧ t.i = s.i ∧ stackKept s t ∧ timersKept s t ∧
    t.keyreg = s.keyreg ∧ t.diag = s.diag ∧ t.env = s.env := by
  rcases hread with ⟨x, rfl⟩ | ⟨x, y, n, rfl⟩
  · rcases h.of_ldVxMem with ⟨_, _, frame⟩ | ⟨_, frame⟩ <;> rw [frame] <;>
      exact ⟨fun _ _ => rfl, rfl, rfl, rfl, ⟨rfl, rfl⟩, ⟨rfl, rfl⟩, rfl, rfl, rfl⟩
  · rcases h.of_drw with ⟨_, _, frame⟩ | ⟨_, frame⟩ <;> rw [frame] <;>
      exact ⟨fun _ _ => rfl, rfl, rfl, rfl, ⟨rfl, rfl⟩, ⟨rfl, rfl⟩, rfl, rfl, rfl⟩

/-- Settles O52: `frame_of_read` for what both leave unchanged, and the frame of each for its own items. -/
theorem loadAndDrawFrame : Obligations.LoadAndDrawFrame := by
  intro i s t hread hexec
  have heffect := effect_of_exec hexec
  obtain ⟨mem, params, pc, index, stack, timers, keyreg, diag, env⟩ := frame_of_read heffect hread
  refine ⟨mem, params, pc, index, stack, timers, keyreg, diag, env, ?_⟩
  rcases hread with ⟨x, rfl⟩ | ⟨x, y, n, rfl⟩
  · obtain ⟨disp, above, control, fault⟩ := frame_of_ldVxMem heffect
    refine ⟨fun x' same => ?_, fun _ _ _ other => (nomatch other), control, fault⟩
    cases same
    exact ⟨above, disp⟩
  · obtain ⟨regs, control, fault⟩ := frame_of_drw heffect
    exact ⟨fun _ other => (nomatch other), fun _ _ _ _ => regs, control, fault⟩

/-! VF (R22, R27). -/

theorem flagWriter_or_writtenX {ds : List Reg} (hdests : registerDests i = some ds) (hmem : (0xF : Reg) ∈ ds) :
    isFlagWriter i = true ∨ writtenX i = some 0xF := by
  cases i <;> cases hdests
  case addVxVy | subVxVy | shrVxVy | subnVxVy | shlVxVy => exact .inl rfl
  all_goals
    obtain rfl := List.mem_singleton.mp hmem
    exact .inr rfl

/-- An instruction that writes VF writes it as the flag or as its `V[x]`. -/
theorem Effect.vf (h : Effect i s t) (hchange : t.getV 0xF ≠ s.getV 0xF) :
    isFlagWriter i = true ∨ writtenX i = some 0xF := by
  cases h with
  | registers hdests hregs => exact flagWriter_or_writtenX hdests (by_contra fun hno => hchange (hregs 0xF hno))
  | random => exact flagWriter_or_writtenX (ds := [_]) rfl (by_contra fun hno => hchange (regsKept_setV _ _ _ 0xF hno))
  | @load x _ _ _ hregs =>
    have top : x = 0xF := Fin.ext (Nat.le_antisymm (by omega) (Nat.le_of_not_lt fun below => hchange (hregs 0xF below)))
    exact .inr (congrArg some top)
  | draw => exact .inl rfl
  | _ => exact absurd rfl hchange

theorem flag_of_toNat_le_one {b : Byte} (h : b.toNat ≤ 1) : b = 0 ∨ b = 1 := by
  rcases Nat.le_one_iff_eq_zero_or_eq_one.mp h with h | h
  · exact .inl (BitVec.eq_of_toNat_eq h)
  · exact .inr (BitVec.eq_of_toNat_eq h)

theorem flagByte_cases (b : Bool) : flagByte b = 0 ∨ flagByte b = 1 := by
  cases b
  · exact .inl rfl
  · exact .inr rfl

theorem shiftedOutRight_cases (a : Byte) : shiftedOutRight a = 0 ∨ shiftedOutRight a = 1 :=
  flag_of_toNat_le_one (by rw [toNat_shiftedOutRight]; omega)

theorem shiftedOutLeft_cases (a : Byte) : shiftedOutLeft a = 0 ∨ shiftedOutLeft a = 1 :=
  flag_of_toNat_le_one (by have := a.isLt; rw [toNat_shiftedOutLeft]; omega)

/-- After a flag writer whose `V[x]` is another register VF holds the flag. -/
theorem vf_of_flagWriter (hflag : isFlagWriter i = true) (hrun : t.run ≠ .halted) (hx : writtenX i ≠ some 0xF)
    (hexec : exec i s = .next t) : t.getV 0xF = 0 ∨ t.getV 0xF = 1 := by
  have dest {x : Reg} (h : writtenX i = some x) : x ≠ 0xF := fun e => hx (h.trans (congrArg some e))
  cases i with
  | addVxVy =>
    cases hexec
    exact (State.getV_setV_same _ flagReg _) ▸ flagByte_cases _
  | subVxVy | subnVxVy =>
    cases hexec
    exact (State.getV_flagThen_flag _ (dest rfl) _ _) ▸ flagByte_cases _
  | shrVxVy =>
    cases hexec
    exact (State.getV_flagThen_flag _ (dest rfl) _ _) ▸ shiftedOutRight_cases _
  | shlVxVy =>
    cases hexec
    exact (State.getV_flagThen_flag _ (dest rfl) _ _) ▸ shiftedOutLeft_cases _
  | drw x y n =>
    rcases exec_drw s x y n with ⟨_, e⟩ | ⟨_, _, e⟩ <;> cases e.symm.trans hexec
    · exact (State.getV_drawAt s _ _ _ flagReg) ▸ flagByte_cases _
    · exact absurd rfl hrun
  | _ => cases hflag

/-- Settles O54: what changes VF by `Effect.vf`, what a flag writer leaves there by `vf_of_flagWriter`. -/
theorem vfIsFlagOrDestination : Obligations.VfIsFlagOrDestination := fun _ _ _ hexec =>
  ⟨(effect_of_exec hexec).vf, fun hflag hrun hx => vf_of_flagWriter hflag hrun hx hexec⟩

end Sys2Proof.Machine
end

section
/-! PROOF of the statements of 41_control_flow.md section 2 on CALL and RET, of 43_index_memory.md section 1, of
45_timer_key.md section 2 on the key wait, and of 70_reset_and_hazards.md section 2 on load. -/

namespace Sys2Proof.Machine

open Sys2Proof.Claims

/-! CALL and RET (R152, R154, R160). -/

/-- Settles O23: the two outcomes of `exec_call`, which the depth tells apart. -/
theorem callPushesReturnAddress : Obligations.CallPushesReturnAddress := by
  refine fun nnn s => ⟨decodes_of_toNat_encode (toNat_packNnn 0x2 nnn), fun room => ?_, fun full => ?_⟩
  · rcases exec_call s nnn with ⟨_, e⟩ | ⟨full, _⟩
    · exact ⟨_, e, toNat_addrWord nnn, rfl, Vector.getElem_set_self room,
        fun k hk => Vector.getElem_set_ne room k.isLt hk.symm, rfl⟩
    · exact absurd full room.ne
  · rcases exec_call s nnn with ⟨room, _⟩ | ⟨_, e⟩
    · exact absurd full room.ne
    · exact e

/-- Settles O24: the two outcomes of `exec_ret`, which the depth tells apart. -/
theorem retPopsReturnAddress : Obligations.RetPopsReturnAddress := by
  refine fun s => ⟨decodes_of_toNat_encode rfl, fun live => ?_, fun empty => ?_⟩
  · rcases exec_ret s with ⟨_, e⟩ | ⟨empty, _⟩
    · exact ⟨_, e, rfl, rfl, rfl⟩
    · exact absurd empty live.ne'
  · rcases exec_ret s with ⟨live, _⟩ | ⟨_, e⟩
    · exact absurd empty live.ne'
    · exact e

/-! Index arithmetic (R201, R202). -/

/-- The address of a glyph is at most `0x50 + 5 * 0xFF`, so nothing wraps. -/
theorem toNat_glyphAddr (b : Byte) : (glyphAddr b).toNat = 0x50 + 5 * b.toNat := by
  have := b.isLt
  rw [glyphAddr, BitVec.toNat_add, BitVec.toNat_mul, toNat_byteWord, show (0x0050 : Word).toNat = 0x50 from rfl,
    show (5 : Word).toNat = 5 from rfl]
  omega

/-- Settles O36: both are writes of `I` alone, of a sum of words and of `glyphAddr`. -/
theorem indexArithmetic : Obligations.IndexArithmetic := fun x s =>
  ⟨decodes_of_encode_eq_packXnn (op := 0xF) (nn := 0x1E) rfl, decodes_of_encode_eq_packXnn (op := 0xF) (nn := 0x29) rfl,
    ⟨_, rfl, by rw [State.setI_i, BitVec.toNat_add, toNat_byteWord], rfl⟩, _, rfl, toNat_glyphAddr (s.getV x), rfl⟩

/-! The key wait (R246, R247). -/

/-- The step of LD Vx, K by the event its poll takes. -/
theorem step_of_ldVxK_event {s : State} {x : Reg} {e : Event} {es : List Event} (hruns : CoreRuns s)
    (hfetch : Fetches s (.ldVxK x)) (hevents : s.env.events = e :: es) :
    step s = .next (State.onEvent { s with
      pc := s.pc + 2, keyreg := x, run := .waitingForKey, env := { envAfterCore s with events := es } } e) := by
  have events : (((s.setEnv (envAfterCore s)).advancePc.setKeyreg x).setRun .waitingForKey).env.events = e :: es :=
    hevents
  rw [step_of_fetches_ldVxK hruns hfetch, State.poll_of_events events]
  rfl

/-- Settles O46: the poll of the same step finds no event, or the quit that halts. -/
theorem keyWaitBegins : Obligations.KeyWaitBegins :=
  ⟨fun _ _ => ⟨decodes_of_encode_eq_packXnn (op := 0xF) (nn := 0x0A) rfl, rfl⟩,
    fun _ _ _ hruns hfetch hnone => step_of_ldVxK_event hruns hfetch hnone,
    fun _ _ _ hruns hfetch hquit => step_of_ldVxK_event hruns hfetch hquit⟩

/-- Settles O47: the waiting step is the poll, which hands the key to `State.deliverKey`. -/
theorem keyArrivalCompletesWait : Obligations.KeyArrivalCompletesWait := fun _ k _ hturn hrun hkey =>
  ⟨_, (step_of_waiting hturn hrun).trans (congrArg _ (State.poll_of_key_waiting hkey hrun)),
    State.getV_deliverKey_keyreg _ k, State.regsKept_deliverKey _ k, rfl⟩

/-! Load (R305, R306). -/

theorem step_of_load_turn {s : State} {bytes : List Byte} (hturn : s.nextTurn = .load bytes)
    (hfirst : s.env.started = false) : step s = .next ((s.withTurns s.env.turns.tail).loadProgram bytes) := by
  have first : ¬ s.env.started = true := by simp [hfirst]
  rw [step, machineStep, hturn]
  exact if_neg first

/-- A load leaves of memory what its store of the first 3584 bytes leaves. -/
theorem readByte_loadProgram (s : State) (bytes : List Byte) (a : Nat) :
    (s.loadProgram bytes).readByte a = (s.putBytes Config.programBase (bytes.take Config.maxLoad)).readByte a := by
  rw [State.loadProgram_eq]
  rfl

/-- Settles O18: the store of the first 3584 bytes read back inside and outside it, and `State.loadProgram_eq` for the
rest. -/
theorem loadCopiesProgram : Obligations.LoadCopiesProgram := by
  intro s bytes hturn hfirst hwf
  have hwf' : (s.withTurns s.env.turns.tail).memWf := hwf
  have stored : (bytes.take Config.maxLoad).length = min bytes.length 3584 := by
    rw [List.length_take, Nat.min_comm, Config.maxLoad]
  have fits : Config.programBase + (bytes.take Config.maxLoad).length ≤ Config.memSize := by
    rw [stored, Config.programBase, Config.memSize]
    omega
  refine ⟨_, step_of_load_turn hturn hfirst, State.loadProgram_memWf hwf' bytes, fun k hk hk' => ?_, fun a hout => ?_,
    ?_, ?_⟩
  · have inside : k < (bytes.take Config.maxLoad).length := by omega
    rw [readByte_loadProgram, show 0x200 = Config.programBase from rfl,
      State.readByte_putBytes_inside _ hwf' fits k inside, List.getElem_take]
  · rw [readByte_loadProgram]
    refine State.readByte_putBytes_outside _ ?_
    rw [stored, Config.programBase]
    omega
  · rw [State.loadProgram_eq]
    rfl
  · rw [State.loadProgram_eq]
    rfl

end Sys2Proof.Machine
end

section
/-! PROOF of the statements of 43_index_memory.md section 2 and 20_memory.md section 6 on the stores and the load
at `I`. -/

namespace Sys2Proof.Machine

open Sys2Proof.Claims

variable (s : State)

/-- The bytes of LD B and their numbers (R12, R203). -/
theorem bcdBytes_eq (b : Byte) :
    ∃ h d o : Byte, bcdBytes b = [h, d, o] ∧
      h.toNat = b.toNat / 100 ∧ d.toNat = b.toNat / 10 % 10 ∧ o.toNat = b.toNat % 10 :=
  ⟨_, _, _, rfl, splitDecimal_toNat rfl⟩

/-- Settles O37: the three bytes of `bcdBytes_eq` read back from the store, or the halt of `exec_ldBVx`. -/
theorem ldBStoresDecimalDigits : Obligations.LdBStoresDecimalDigits := by
  refine fun x s => ⟨decodes_of_encode_eq_packXnn (op := 0xF) (nn := 0x33) rfl, fun hwf hin => ?_, fun hout => ?_⟩
  · rcases exec_ldBVx s x with ⟨fits, e⟩ | ⟨outside, _⟩
    · obtain ⟨h, d, o, bytes, hundreds, tens, ones⟩ := bcdBytes_eq (s.getV x)
      rw [bytes] at e
      have fits' : s.i.toNat + [h, d, o].length ≤ Config.memSize := fits
      have kept := memKept_putBytes s s.i.toNat [h, d, o]
      refine ⟨_, h, d, o, e, s.readByte_putBytes_inside hwf fits' 0 (by simp), hundreds,
        s.readByte_putBytes_inside hwf fits' 1 (by simp), tens, s.readByte_putBytes_inside hwf fits' 2 (by simp), ones,
        fun a ha => kept a (by simp only [List.length_cons, List.length_nil]; omega), s.putBytes_memWf hwf fits', rfl⟩
    · simp only [Config.memSize] at outside
      omega
  · rcases exec_ldBVx s x with ⟨fits, _⟩ | ⟨_, e⟩
    · simp only [Config.memSize] at fits
      omega
    · exact e

/-- Register `k` stored by LD [I], Vx reads back at `I + k`. -/
theorem readByte_putBytes_regsUpTo (hwf : s.memWf) {x : Reg} (hin : s.i.toNat + x.val ≤ 0x0FFF) {k : Reg}
    (hk : k.val ≤ x.val) : (s.putBytes s.i.toNat (regsUpTo s x)).readByte (s.i.toNat + k.val) = some (s.getV k) := by
  rw [s.readByte_putBytes_inside hwf (by rw [length_regsUpTo, Config.memSize]; omega) k.val
    (by rw [length_regsUpTo]; omega), getElem_regsUpTo]

theorem exec_ldMemVx_inside {x : Reg} (hin : s.i.toNat + x.val ≤ 0x0FFF) :
    exec (.ldMemVx x) s = .next (s.putBytes s.i.toNat (regsUpTo s x)) := by
  rcases exec_ldMemVx s x with ⟨_, e⟩ | ⟨outside, _⟩
  · exact e
  · simp only [Config.memSize] at outside
    omega

/-- Settles O38: `readByte_putBytes_regsUpTo` for the stored bytes, `memKept_putBytes` for the others. -/
theorem ldMemStoresRegisters : Obligations.LdMemStoresRegisters := by
  refine fun x s => ⟨decodes_of_encode_eq_packXnn (op := 0xF) (nn := 0x55) rfl, fun hwf hin => ?_, fun hout => ?_⟩
  · have kept := memKept_putBytes s s.i.toNat (regsUpTo s x)
    rw [length_regsUpTo] at kept
    exact ⟨_, exec_ldMemVx_inside s hin, fun k hk => readByte_putBytes_regsUpTo s hwf hin hk,
      fun a ha => kept a (by omega), s.putBytes_memWf hwf (by rw [length_regsUpTo, Config.memSize]; omega), rfl⟩
  · rcases exec_ldMemVx s x with ⟨fits, _⟩ | ⟨_, e⟩
    · simp only [Config.memSize] at fits
      omega
    · exact e

/-- Settles O39: each register up to `x` takes its byte of the read, by `getElem_putRegs`. -/
theorem ldVxMemLoadsRegisters : Obligations.LdVxMemLoadsRegisters := by
  refine fun x s => ⟨decodes_of_encode_eq_packXnn (op := 0xF) (nn := 0x65) rfl, fun hin => ?_, fun hout => ?_⟩
  · rcases exec_ldVxMem s x with ⟨fits, e⟩ | ⟨outside, _⟩
    · refine ⟨_, e, fun k hk => ?_, fun k hk => getV_putRegs_above s _ k (by rw [Memory.length_bytesAt]; exact hk), rfl⟩
      rw [s.readByte_eq (by omega), State.getV, State.setRegs_v, getElem_putRegs,
        dif_pos (by rw [Memory.length_bytesAt]; omega), Memory.getElem_bytesAt]
      rfl
    · simp only [Config.memSize] at outside
      omega
  · rcases exec_ldVxMem s x with ⟨fits, _⟩ | ⟨_, e⟩
    · simp only [Config.memSize] at fits
      omega
    · exact e

/-- Settles O40: V0 and V1 read back at `I` and `I + 1`, which is what a fetch there reads. -/
theorem storedWordIsFetched : Obligations.StoredWordIsFetched := by
  intro x s hwf hx hin
  refine ⟨_, exec_ldMemVx_inside s hin, (State.fetchWord_iff _ _).mpr ⟨s.getV 0, s.getV 1, ?_, ?_, rfl⟩⟩
  · exact readByte_putBytes_regsUpTo s hwf hin (k := 0) (Nat.zero_le _)
  · exact readByte_putBytes_regsUpTo s hwf hin (k := 1) hx

end Sys2Proof.Machine
end

section
/-! PROOF of the statements of 44_display.md on DRW: the picture of the bytes read at `I` as the statement says it
(`spriteAt`), one draw cell by cell, and two draws of the same sprite (R222, R225). -/

namespace Sys2Proof.Machine

open Sys2Proof.Claims

variable {s t : State}

/-- The picture of the `n` bytes read at `I` is the sprite in memory (R222). -/
theorem spriteBit_bytesAt {n : Nat} (hin : n = 0 ∨ s.i.toNat + n ≤ Config.memSize) (xc yc r c : Nat) :
    spriteBit (s.mem.bytesAt s.params.font s.i.toNat n) xc yc r c = spriteAt s n xc yc r c := by
  unfold spriteBit spriteAt
  by_cases above : r < yc
  · simp [Nat.not_le_of_lt above]
  by_cases below : yc + n ≤ r
  · rw [List.getD_eq_default _ _ (by rw [Memory.length_bytesAt]; omega)]
    simp [Nat.not_lt_of_le below]
  · have inside : r - yc < (s.mem.bytesAt s.params.font s.i.toNat n).length := by
      rw [Memory.length_bytesAt]
      omega
    rw [s.readByte_eq (by omega), List.getD_eq_getElem _ _ inside, Memory.getElem_bytesAt]
    simp [Nat.le_of_not_lt above, Nat.lt_of_not_le below]

/-- Each cell after a draw is XORed with the sprite's picture. -/
theorem State.getPixelAt_drawAt (s : State) (xc yc : Nat) (rows : List Byte) (r : Fin 32) (c : Fin 64) :
    (s.drawAt xc yc rows).getPixelAt c r = (s.getPixelAt c r ^^ spriteBit rows xc yc r.val c.val) := by
  rw [State.getPixelAt, State.disp_drawAt, cell_drawSprite, State.getPixelAt]

theorem flagByte_eq_one_iff (b : Bool) : flagByte b = 1 ↔ b = true := by
  cases b <;> decide

/-- VF after a draw: 1 iff some 1 of the picture fell on a cell that held 1, else 0. -/
theorem State.vf_drawAt (s : State) (xc yc : Nat) (rows : List Byte) :
    (s.drawAt xc yc rows).getV 0xF = 1 ↔
      ∃ (r : Fin 32) (c : Fin 64), spriteBit rows xc yc r.val c.val = true ∧ s.getPixelAt c r = true := by
  have flag : (s.drawAt xc yc rows).getV 0xF = flagByte (drawSprite s.disp rows xc yc).collided :=
    s.getV_drawAt xc yc rows flagReg
  rw [flag, flagByte_eq_one_iff, collided_drawSprite]
  rfl

theorem State.vf_drawAt_cases (s : State) (xc yc : Nat) (rows : List Byte) :
    (s.drawAt xc yc rows).getV 0xF = 0 ∨ (s.drawAt xc yc rows).getV 0xF = 1 :=
  (s.getV_drawAt xc yc rows flagReg) ▸ flagByte_cases _

/-- VF by what the cells were and became: a cell goes from 1 to 0 exactly where a 1 of the picture falls on a 1. -/
theorem State.vf_drawAt_iff (s : State) (xc yc : Nat) (rows : List Byte) :
    (s.drawAt xc yc rows).getV 0xF = 1 ↔
      ∃ (r : Fin 32) (c : Fin 64), s.getPixelAt c r = true ∧ (s.drawAt xc yc rows).getPixelAt c r = false := by
  simp only [State.vf_drawAt, State.getPixelAt_drawAt]
  refine exists_congr fun r => exists_congr fun c => ?_
  cases spriteBit rows xc yc r.val c.val <;> cases s.getPixelAt c r <;> decide

/-- DRW inside memory, with the origin as remainders (R225). -/
theorem exec_drw_inside {x y : Reg} {n : Nibble} (hin : n.toNat = 0 ∨ s.i.toNat + n.toNat ≤ Config.memSize) :
    exec (.drw x y n) s = .next (s.drawAt ((s.getV x).toNat % 64) ((s.getV y).toNat % 32)
      (s.mem.bytesAt s.params.font s.i.toNat n.toNat)) := by
  rcases exec_drw s x y n with ⟨_, e⟩ | ⟨rows, outside, _⟩
  · rw [e, originColumn_eq, originRow_eq]
  · omega

/-- Settles O42: the cells by `State.getPixelAt_drawAt` and `spriteBit_bytesAt`, VF by `State.vf_drawAt_iff`. -/
theorem drwXorsSpriteAndReportsCollision : Obligations.DrwXorsSpriteAndReportsCollision := by
  intro x y n s xc yc
  refine ⟨decodes_of_toNat_encode (toNat_packXyn 0xD x y n), fun hin => ?_, fun rows hout => ?_⟩
  · have inside : n.toNat = 0 ∨ s.i.toNat + n.toNat ≤ Config.memSize := by
      simp only [Config.memSize]
      omega
    refine ⟨_, exec_drw_inside inside, fun r c => ?_, fun hlost => (s.vf_drawAt_iff _ _ _).mpr hlost, fun hkept => ?_,
      regsKept_drawAt s _ _ _, s.drawAt_eq _ _ _⟩
    · rw [State.getPixelAt_drawAt, spriteBit_bytesAt inside]
    · refine (s.vf_drawAt_cases _ _ _).resolve_right fun one => ?_
      obtain ⟨r, c, was, is⟩ := (s.vf_drawAt_iff _ _ _).mp one
      rw [hkept r c was] at is
      cases is
  · refine exec_of_accessFaults (accessFaults_iff.mpr ⟨rows, ?_⟩)
    simp only [accessSize, Config.memSize]
    omega

/-- A draw that did not halt was inside memory. -/
theorem eq_drawAt_of_exec {x y : Reg} {n : Nibble} (hexec : exec (.drw x y n) s = .next t) (hrun : t.run ≠ .halted) :
    (n.toNat = 0 ∨ s.i.toNat + n.toNat ≤ Config.memSize) ∧
    t = s.drawAt ((s.getV x).toNat % 64) ((s.getV y).toNat % 32)
      (s.mem.bytesAt s.params.font s.i.toNat n.toNat) := by
  rcases exec_drw s x y n with ⟨inside, _⟩ | ⟨_, _, e⟩
  · exact ⟨inside, (Host.Outcome.next.inj ((exec_drw_inside inside).symm.trans hexec)).symm⟩
  · cases e.symm.trans hexec
    exact absurd rfl hrun

/-- Two draws of the same picture restore the display. -/
theorem State.disp_drawAt_twice (s : State) (xc yc : Nat) (rows : List Byte) :
    ((s.drawAt xc yc rows).drawAt xc yc rows).disp = s.disp := by
  refine Display.ext_cell fun r c => ?_
  have twice : ((s.drawAt xc yc rows).drawAt xc yc rows).getPixelAt c r = s.getPixelAt c r := by
    rw [State.getPixelAt_drawAt, State.getPixelAt_drawAt, Bool.xor_assoc, Bool.xor_self, Bool.xor_false]
  exact twice

/-- The second of two draws collides where the picture falls on a cell that was 0 before the first. -/
theorem State.vf_drawAt_twice (s : State) (xc yc : Nat) (rows : List Byte) :
    ((s.drawAt xc yc rows).drawAt xc yc rows).getV 0xF = 1 ↔
      ∃ (r : Fin 32) (c : Fin 64), s.getPixelAt c r = false ∧ spriteBit rows xc yc r.val c.val = true := by
  simp only [State.vf_drawAt, State.getPixelAt_drawAt]
  refine exists_congr fun r => exists_congr fun c => ?_
  cases spriteBit rows xc yc r.val c.val <;> cases s.getPixelAt c r <;> decide

/-- Settles O43: with `x` and `y` not F the first draw keeps the origin, and it keeps memory and `I`, so the second is
of the same picture at the same place. -/
theorem drawingTwiceRestoresDisplay : Obligations.DrawingTwiceRestoresDisplay := by
  intro x y n s t u hx hy _ hfirst hrun hsecond
  obtain ⟨inside, ht⟩ := eq_drawAt_of_exec hfirst hrun
  have sameX : t.getV x = s.getV x := by rw [ht]; exact regsKept_drawAt s _ _ _ x (mt List.mem_singleton.mp hx)
  have sameY : t.getV y = s.getV y := by rw [ht]; exact regsKept_drawAt s _ _ _ y (mt List.mem_singleton.mp hy)
  have sameI : t.i = s.i := by rw [ht, State.drawAt_eq]
  have sameMem : t.mem = s.mem := by rw [ht, State.drawAt_eq]
  have sameParams : t.params = s.params := by rw [ht, State.drawAt_eq]
  have hu := exec_drw_inside (s := t) (x := x) (y := y) (n := n) (by rw [sameI]; exact inside)
  rw [hsecond, sameX, sameY, sameI, sameMem, sameParams, ht] at hu
  cases hu
  refine ⟨s.disp_drawAt_twice _ _ _, (s.vf_drawAt_twice _ _ _).trans ?_⟩
  simp only [spriteBit_bytesAt inside]

end Sys2Proof.Machine
end
